-- ==== Sys2Proof/Word.lean ====
section
/-! DEFINITION. The word types: a byte is 8 bits (R50), a SHA-1 word 32 bits (R155), the counter and the time values 64 bits (R5). -/

namespace Sys2Proof

/-- A byte, an unsigned integer 0 to 255 (R6, R50). -/
abbrev Byte := BitVec 8

/-- A 32-bit word: the truncation window (R125) and the words of SHA-1 (R155). -/
abbrev Word32 := BitVec 32

/-- A 64-bit word: `W_COUNTER`, `W_TIME` and `W_STEP` are 64 (R5). -/
abbrev Word64 := BitVec 64

/-- A command or response frame: a byte sequence delivered whole, so that its length is known (R70). -/
abbrev Frame := List Byte

end Sys2Proof
end

