-- ==== Sys2Proof/Config.lean ====
section
/-! DEFINITION. The implementation parameters of R5, each at the value this hardware takes. The widths are types: `W_COUNTER`, `W_TIME` and `W_STEP` are `Word64`, `W_DIGITS` is `Byte`; `L_MSG` is the 8 of `be8`; `H` is `hmacSha1`. -/

namespace Sys2Proof.Config

/-- `L_DIGEST`: bytes of the digest (R5, R123). -/
def digestLength : Nat := 20

/-- `L_WINDOW`: bytes of the truncation window (R5, R125). -/
def windowLength : Nat := 4

/-- `TRUNC_MASK`: the mask applied to the window (R5, R125). -/
def truncMask : Word32 := 0x7FFFFFFF

/-- `OFFSET_MASK`: the mask that gives the offset (R5, R124). -/
def offsetMask : Byte := 0x0F

/-- `DEFAULT_INIT`: init seconds of the convenience variant (R5, R184). -/
def defaultInit : Word64 := 0

/-- `DEFAULT_STEP`: time step of the convenience variant (R5, R184). -/
def defaultStep : Word64 := 30

/-- `DIGITS_MAX`: the largest digit count a configure command accepts (R5, R181). -/
def digitsMax : Nat := 9

/-- `SECRET_MAX`: the largest secret length in bytes (R5, R77). -/
def secretMax : Nat := 65535

end Sys2Proof.Config
end

