-- ==== Sys2Proof/Machine/Operands.lean ====
section
/-! DEFINITION. Byte order and field access: big-endian numbers, slices of byte sequences, the buffer read `MemRead` (R6, R7, R8, R51). -/

namespace Sys2Proof.Machine

/-- `be_n(v)`: the `n` bytes of `v`, most significant first (R7). -/
def be : Nat → Nat → List Byte
  | 0, _ => []
  | n + 1, v => BitVec.ofNat 8 (v / 256 ^ n) :: be n v

/-- `from_be(B)`: the sum over `i` of `B[i] * 256^(len(B)-1-i)` (R7). -/
def fromBe : List Byte → Nat
  | [] => 0
  | b :: bs => b.toNat * 256 ^ bs.length + fromBe bs

/-- `B[a..b)`: the half-open slice, byte `a` included and byte `b` excluded (R6). -/
def slice (bs : List Byte) (a b : Nat) : List Byte :=
  (bs.drop a).take (b - a)

/-- `B[i]` (R6); every use stands behind a length check that puts `i` inside the sequence. -/
def byteAt (bs : List Byte) (i : Nat) : Byte :=
  bs.getD i 0

/-- The unsigned 64-bit field at bytes `a` to `a+7` of a frame (R72, R76). -/
def fieldU64 (bs : List Byte) (a : Nat) : Word64 :=
  BitVec.ofNat 64 (fromBe (slice bs a (a + 8)))

/-- The unsigned 16-bit field at bytes `a` and `a+1` of a frame (R72, R76). -/
def fieldU16 (bs : List Byte) (a : Nat) : Nat :=
  fromBe (slice bs a (a + 2))

/-- `MemRead(B + a, n)`: the `n` bytes at index `a` as a big-endian number, defined only when they lie inside the buffer (R8). -/
def memRead (bs : List Byte) (a n : Nat) : Option Nat :=
  if a + n ≤ bs.length then some (fromBe (slice bs a (a + n))) else none

/-- `be_8` of a 64-bit register: the form of the counter message (R121) and of the registers STAT returns (R185). -/
def be8 (w : Word64) : List Byte :=
  be 8 w.toNat

end Sys2Proof.Machine
end

