-- ==== Sys2Proof/Syntax.lean ====
section
/-! DEFINITION. The command set: one constructor per row of spec/opcode_table.json (R74). -/

namespace Sys2Proof

/-- A decoded command with its operands, as R75 and R76 assemble them. -/
inductive Instr where
  /-- `CFG.HOTP`, opcode 0x01 (R182). -/
  | cfgHotp (digits : Byte) (c0 : Word64) (secret : List Byte)
  /-- `CFG.TOTP`, opcode 0x02 (R183); `init` is read as two's complement, `step` as unsigned (R76). -/
  | cfgTotp (digits : Byte) (init step : Word64) (secret : List Byte)
  /-- `CFG.TOTPD`, opcode 0x03 (R184). -/
  | cfgTotpd (digits : Byte) (secret : List Byte)
  /-- `GEN`, opcode 0x10 (R120). -/
  | gen
  /-- `STAT`, opcode 0x20 (R185). -/
  | stat
  deriving DecidableEq, Repr

end Sys2Proof
end

