-- ==== Sys2Proof/Decode.lean ====
section
/-! DEFINITION. Decoding of command frames, total on any bytes (R75), the encoder written from the same formats (R73), and the host's reading of the opcode table. -/

namespace Sys2Proof

open Sys2Proof.Machine

/-- Why a frame is no command (R75). -/
inductive DecodeError where
  /-- Byte 0 is none of the five opcodes: status `E_OPCODE` (R207). -/
  | illegalOpcode
  /-- The frame is empty or has not the length its format requires: status `E_FRAME` (R208). -/
  | badFrame
  deriving DecidableEq, Repr

/-- The result of decoding: a command or a refusal (R75). -/
inductive Decoded where
  | command (i : Instr)
  | refuse (e : DecodeError)
  deriving DecidableEq, Repr

/-- The opcode byte of each command (R74). -/
def opcode : Instr → Byte
  | .cfgHotp .. => 0x01
  | .cfgTotp .. => 0x02
  | .cfgTotpd .. => 0x03
  | .gen => 0x10
  | .stat => 0x20

/-- Format Z: the frame is the opcode alone (R73; R75 lines 4 and 5). -/
def decodeZ (f : Frame) (i : Instr) : Decoded :=
  if f.length = 1 then .command i else .refuse .badFrame

/-- Format H: fixed part of 12 bytes, then `slen` secret bytes (R73; R75 line 6). -/
def decodeH (f : Frame) : Decoded :=
  if f.length < 12 then .refuse .badFrame
  else if f.length = 12 + fieldU16 f 10 then
    .command (.cfgHotp (byteAt f 1) (fieldU64 f 2) (slice f 12 (12 + fieldU16 f 10)))
  else .refuse .badFrame

/-- Format T: fixed part of 20 bytes, then `slen` secret bytes (R73; R75 line 7). -/
def decodeT (f : Frame) : Decoded :=
  if f.length < 20 then .refuse .badFrame
  else if f.length = 20 + fieldU16 f 18 then
    .command (.cfgTotp (byteAt f 1) (fieldU64 f 2) (fieldU64 f 10) (slice f 20 (20 + fieldU16 f 18)))
  else .refuse .badFrame

/-- Format D: fixed part of 4 bytes, then `slen` secret bytes (R73; R75 line 8). -/
def decodeD (f : Frame) : Decoded :=
  if f.length < 4 then .refuse .badFrame
  else if f.length = 4 + fieldU16 f 2 then
    .command (.cfgTotpd (byteAt f 1) (slice f 4 (4 + fieldU16 f 2)))
  else .refuse .badFrame

/-- Decoding of any byte sequence; it reads only the frame, never the state (R75). -/
def decode (f : Frame) : Decoded :=
  match f with
  | [] => .refuse .badFrame
  | op :: _ =>
    if op = 0x10 then decodeZ f .gen
    else if op = 0x20 then decodeZ f .stat
    else if op = 0x01 then decodeH f
    else if op = 0x02 then decodeT f
    else if op = 0x03 then decodeD f
    else .refuse .illegalOpcode

/-- The frame of a command: the fields of its format in order, with no padding (R71, R73). -/
def encode : Instr → Frame
  | .cfgHotp digits c0 secret =>
    0x01 :: digits :: (be8 c0 ++ be 2 secret.length ++ secret)
  | .cfgTotp digits init step secret =>
    0x02 :: digits :: (be8 init ++ be8 step ++ be 2 secret.length ++ secret)
  | .cfgTotpd digits secret =>
    0x03 :: digits :: (be 2 secret.length ++ secret)
  | .gen => [0x10]
  | .stat => [0x20]

/-- The total length of a command's frame (R73). -/
def frameLength : Instr → Nat
  | .cfgHotp _ _ secret => 12 + secret.length
  | .cfgTotp _ _ _ secret => 20 + secret.length
  | .cfgTotpd _ secret => 4 + secret.length
  | .gen => 1
  | .stat => 1

/-- The first `n` bytes of a number whose least significant byte comes first: the numbering of spec/opcode_table.json's bits. -/
def tableBytes : Nat → Nat → List Byte
  | 0, _ => []
  | n + 1, w => BitVec.ofNat 8 w :: tableBytes n (w / 256)

/-- Append zero bytes up to a length of `n`. -/
def padTo (n : Nat) (f : Frame) : Frame :=
  f ++ List.replicate (n - f.length) 0

/-- Pad a configure frame to its fixed part and then to the secret length that its `slen` field (at byte `at16`) names. -/
def padFormat (fixed at16 : Nat) (f : Frame) : Frame :=
  padTo (fixed + fieldU16 (padTo fixed f) at16) (padTo fixed f)

/-- The frame for bits of the opcode table: the bytes given, with zero bytes up to the length the opcode's format requires
(where the port's end mark then stands, R79; log entry 13). -/
def frameOfTableWord (nbits w : Nat) : Frame :=
  let f := tableBytes (nbits / 8) w
  match f with
  | [] => f
  | op :: _ =>
    if op = 0x01 then padFormat 12 10 f
    else if op = 0x02 then padFormat 20 18 f
    else if op = 0x03 then padFormat 4 2 f
    else f

/-- The instruction the decoder reads from an instruction whose bits are `w`, numbered as spec/opcode_table.json numbers them. -/
def decodeTableWord (nbits w : Nat) : Option Instr :=
  match decode (frameOfTableWord nbits w) with
  | .command i => some i
  | .refuse _ => none

end Sys2Proof
end

