-- ==== Sys2Proof/Machine/State.lean ====
section
/-! DEFINITION. The state of the block (R20), the ports as plain data (R33, R35), the reasons a step can stop, and the state after reset (R36). -/

namespace Sys2Proof.Machine

/-- The life-cycle state, register `PHASE` (R27); the encoding 3 is never held and has no constructor. -/
inductive Phase where
  /-- No engine instance exists. -/
  | unconf
  /-- An engine instance exists and generates on demand. -/
  | ready
  /-- An internal invariant violation has happened; only reset leaves this phase. -/
  | faulted
  deriving DecidableEq, Repr

/-- Which Counter Source the engine is wired to, register `MODE` (R23). -/
inductive Mode where
  /-- The incrementing variant (HOTP, unit U2). -/
  | inc
  /-- The time-derived variant (TOTP, unit U3). -/
  | time
  deriving DecidableEq, Repr

/-- One thing the outside world does to the block (R33, R242). -/
inductive Event where
  /-- The host delivers one whole frame on `CMD`; `now` is what the `NOW` input holds while its command is performed (R33, R108). -/
  | frame (bytes : Frame) (now : Word64)
  /-- `RESET` is asserted and released while no command is in flight (R36). -/
  | reset
  /-- `RESET` is asserted while the command of this frame is in flight, or the frame is only partly received (R37). -/
  | resetDuring (bytes : Frame)
  /-- The platform breaks the frame discipline: interleaved bytes, or two drivers on the port (R236). -/
  | frameDisciplineBroken
  deriving DecidableEq, Repr

/-- The machine: the eight registers of R20, then the ports, which are the model's own fields (log entries 1 to 3). -/
structure State where
  /-- `PHASE`, the life-cycle state (R20, R27). -/
  phase : Phase
  /-- `MODE`, the Counter Source of the engine (R20, R23). -/
  mode : Mode
  /-- `SECRET`, the shared key (R20, R21). -/
  secret : List Byte
  /-- `SECRET_LEN`, the number of secret bytes (R20). -/
  secretLen : BitVec 16
  /-- `DIGITS`, the digit count (R20, R22). -/
  digits : Byte
  /-- `COUNTER`, the counter of the incrementing variant (R20, R24). -/
  counter : Word64
  /-- `INIT_SECONDS`, two's complement (R20, R25). -/
  initSeconds : Word64
  /-- `TIME_STEP`, unsigned (R20, R25). -/
  timeStep : Word64
  /-- Port `NOW`: the sample for the present command, two's complement (R33, R35; the model's own field). -/
  now : Word64
  /-- Ports `CMD` and `RESET`: what the outside does next, oldest first (R33, R35; the model's own field). -/
  cmd : List Event
  /-- Port `RSP`: the response frames sent so far, oldest first (R35, R58; the model's own field). -/
  rsp : List Frame
  deriving DecidableEq, Repr

/-- The reasons the machine stops with a fault. -/
inductive Fault where
  /-- Raised by GEN if the window read left the digest, where `MemRead` is not defined (R8). Never reached, by R53; safe. -/
  | bufferBounds
  deriving DecidableEq, Repr

/-- The reasons the model gives a step no meaning. -/
inductive Refusal where
  /-- The instruction with this mnemonic has no meaning yet: raised by exec's refused arms only; safe. -/
  | notModelled (mnemonic : String)
  /-- Raised by GEN in READY with `MODE = TIME` and `TIME_STEP = 0`, a state no run reaches and in which R107 says the step
  is refused; safe. -/
  | zeroTimeStep
  /-- Raised by step when the platform breaks the frame discipline: R236 says the run is refused and no outcome is picked; safe. -/
  | frameDiscipline
  deriving DecidableEq, Repr

/-- The machine right after reset: every register at the value of R20 and R36; nothing sent, nothing pending (R230).
The value of `now` is a DESIGN CHOICE (log entry 3): an input has no reset value. -/
def State.reset : State where
  phase := .unconf
  mode := .inc
  secret := []
  secretLen := 0
  digits := 0
  counter := 0
  initSeconds := 0
  timeStep := 0
  now := 0
  cmd := []
  rsp := []

end Sys2Proof.Machine
end

