-- ==== Sys2Proof/Machine/Flags.lean ====
section
/-! DEFINITION. The block has no flags (R31): the outcome of a command is its status byte (R81), and the control state is read through the `STATUS` view (R28) and the `FAULT` output (R35). -/

namespace Sys2Proof.Machine

/-- The status of a response (R81); every other byte value is never sent. -/
inductive Status where
  /-- The command was performed. -/
  | ok
  /-- Invalid digit count (R201). -/
  | eDigits
  /-- Zero time step (R202). -/
  | eStep
  /-- The command is not allowed in the present phase (R205). -/
  | eState
  /-- Illegal opcode (R207). -/
  | eOpcode
  /-- Empty frame or wrong frame length (R208). -/
  | eFrame
  /-- The digest was not 20 bytes, now or earlier (R203, R204). -/
  | eFatal
  deriving DecidableEq, Repr

/-- The status byte (R81). -/
def Status.code : Status → Byte
  | .ok => 0x00
  | .eDigits => 0x01
  | .eStep => 0x02
  | .eState => 0x03
  | .eOpcode => 0x04
  | .eFrame => 0x05
  | .eFatal => 0x80

/-- The status that reports a frame that is no command (R75, R207, R208). -/
def decodeStatus : DecodeError → Status
  | .illegalOpcode => .eOpcode
  | .badFrame => .eFrame

/-- The encoding of `PHASE` in `STATUS[1:0]` (R20, R28). -/
def phaseBits : Phase → BitVec 2
  | .unconf => 0
  | .ready => 1
  | .faulted => 2

/-- The encoding of `MODE` in `STATUS[2]` (R20, R28). -/
def modeBit : Mode → BitVec 1
  | .inc => 0
  | .time => 1

/-- `STATUS`: bits 7:3 read 0, bit 2 is `MODE`, bits 1:0 are `PHASE` (R28). -/
def statusByte (s : State) : Byte :=
  (0 : BitVec 5) ++ modeBit s.mode ++ phaseBits s.phase

/-- The `FAULT` output: 1 exactly when `PHASE = FAULTED` (R35, R211). -/
def faultOutput (s : State) : Bool :=
  decide (s.phase = .faulted)

/-- A digit count is valid exactly when `1 <= digits <= DIGITS_MAX` (R181). -/
def digitsValid (digits : Byte) : Bool :=
  decide (1 ≤ digits.toNat ∧ digits.toNat ≤ Config.digitsMax)

end Sys2Proof.Machine
end

