-- ==== Sys2Proof/Machine/Ops.lean ====
section
/-! DEFINITION. The named operations on the state: responding, raising a status, the fatal fault, reset, the phase checks, constructing an engine, reading the key. -/

namespace Sys2Proof.Machine

/-- `respond(status, payload)`: the frame `[status] ++ payload` leaves on `RSP` after the earlier ones (R8, R58, R80). -/
def respond (st : Status) (payload : List Byte) (s : State) : State :=
  { s with rsp := s.rsp ++ [st.code :: payload] }

/-- Taking an exception: a command ends with a status other than `OK` and no payload; nothing is saved and no register is
written (R200 (b), R212). -/
def raise (st : Status) (s : State) : State :=
  respond st [] s

/-- The fatal fault: `PHASE <- FAULTED` and the response `[0x80]`; the writes made before it stand (R8, R123, R203). -/
def raiseFatal (s : State) : State :=
  raise .eFatal { s with phase := .faulted }

/-- Reset, the one way back from the fatal fault: every register takes its reset value (R36, R213). What the host does next, the
input `NOW` and the responses already sent are outside the block and stay. -/
def applyReset (s : State) : State :=
  { s with
    phase := .unconf
    mode := .inc
    secret := []
    secretLen := 0
    digits := 0
    counter := 0
    initSeconds := 0
    timeStep := 0 }

/-- Whether the phase refuses a configure command, and with which status (R210 lines 3 and 4, R180). -/
def refuseConfigure : Phase → Option Status
  | .unconf => none
  | .ready => some .eState
  | .faulted => some .eFatal

/-- Whether the phase refuses GEN, and with which status (R210 lines 3 and 4, R120). -/
def refuseGenerate : Phase → Option Status
  | .unconf => some .eState
  | .ready => none
  | .faulted => some .eFatal

/-- A successful configure command: it writes every register in one step, enters `READY` and answers `OK` (R180, R182, R183). -/
def construct (digits : Byte) (mode : Mode) (counter init step : Word64) (secret : List Byte) (s : State) : State :=
  respond .ok []
    { s with
      phase := .ready
      mode := mode
      secret := secret
      secretLen := BitVec.ofNat 16 secret.length
      digits := digits
      counter := counter
      initSeconds := init
      timeStep := step }

/-- The key: the `SECRET_LEN` bytes of `SECRET` (R50, R122). -/
def key (s : State) : List Byte :=
  s.secret.take s.secretLen.toNat

end Sys2Proof.Machine
end

