-- ==== Sys2Proof/Machine/Configure.lean ====
section
/-! DEFINITION. The configure commands `CFG.HOTP`, `CFG.TOTP`, `CFG.TOTPD` (R180 to R184), with the checks in the order of R210. -/

namespace Sys2Proof.Machine

/-- The order of checks of every configure command: the phase, the digit count, the command's own check; then it is performed
(R210 lines 3 to 6). -/
def configure (digits : Byte) (ownCheck : Option Status) (performed : State → State) (s : State) :
    Host.Outcome State Fault Refusal :=
  match refuseConfigure s.phase with
  | some st => .next (raise st s)
  | none =>
    if digitsValid digits then
      match ownCheck with
      | some st => .next (raise st s)
      | none => .next (performed s)
    else .next (raise .eDigits s)

/-- The check of a time step: zero is refused with `E_STEP` (R183, R202). -/
def checkStep (step : Word64) : Option Status :=
  if step = 0 then some .eStep else none

/-- The construction of a time-derived engine (R183): `COUNTER` is set to 0. -/
def configureTime (digits : Byte) (init step : Word64) (secret : List Byte) (s : State) : Host.Outcome State Fault Refusal :=
  configure digits (checkStep step) (construct digits .time 0 init step secret) s

/-- `CFG.HOTP(digits, c0, secret)` (R182). -/
def execCfgHotp (digits : Byte) (c0 : Word64) (secret : List Byte) (s : State) : Host.Outcome State Fault Refusal :=
  configure digits none (construct digits .inc c0 0 0 secret) s

/-- `CFG.TOTP(digits, init, step, secret)` (R183). -/
def execCfgTotp (digits : Byte) (init step : Word64) (secret : List Byte) (s : State) : Host.Outcome State Fault Refusal :=
  configureTime digits init step secret s

/-- `CFG.TOTPD(digits, secret)`: by definition `CFG.TOTP` with the defaults 0 and 30 (R184). -/
def execCfgTotpd (digits : Byte) (secret : List Byte) (s : State) : Host.Outcome State Fault Refusal :=
  configureTime digits Config.defaultInit Config.defaultStep secret s

end Sys2Proof.Machine
end

