-- ==== Sys2Proof/Machine/CounterSource.lean ====
section
/-! DEFINITION. The Counter Source: `next()`, the incrementing variant (unit U2) and the time-derived variant (unit U3) (R100 to R108). -/

namespace Sys2Proof.Machine

/-- `NEXT.INC`: the old value of `COUNTER`, which is advanced by 1 modulo 2^64 (R101). -/
def nextInc (s : State) : Word64 × State :=
  (s.counter, { s with counter := s.counter + 1 })

/-- The value of `NEXT.TIME` for one sample: the exact difference, the floor of the quotient, modulo 2^64 (R103, R105, R106). -/
def timeCounter (now init step : Word64) : Word64 :=
  BitVec.ofInt 64 ((now.toInt - init.toInt).fdiv step.toNat)

/-- `NEXT.TIME`: no register is written (R103); a zero time step has no meaning (R107). -/
def nextTime (s : State) : Option Word64 :=
  if s.timeStep = 0 then none else some (timeCounter s.now s.initSeconds s.timeStep)

/-- `next()`: the counter of the variant `MODE` selects, and the state it leaves (R100). -/
def nextCounter (s : State) : Option (Word64 × State) :=
  match s.mode with
  | .inc => some (nextInc s)
  | .time => (nextTime s).map fun ctr => (ctr, s)

end Sys2Proof.Machine
end

