-- ==== Sys2Proof/Machine/Sha1.lean ====
section
/-! DEFINITION. SHA-1 as R154 to R159 write it out. -/

namespace Sys2Proof.Machine

/-- The five words of the hash state, or of the working variables (R155, R158). -/
structure Sha1Words where
  a : Word32
  b : Word32
  c : Word32
  d : Word32
  e : Word32
  deriving DecidableEq, Repr

/-- `H0` to `H4` before the first block (R155). -/
def sha1Initial : Sha1Words where
  a := 0x67452301
  b := 0xEFCDAB89
  c := 0x98BADCFE
  d := 0x10325476
  e := 0xC3D2E1F0

/-- `rotl(x, s)` on 32-bit words, for `0 < s < 32` (R155). -/
def rotl (x : Word32) (s : Nat) : Word32 :=
  (x <<< s) ||| (x >>> (32 - s))

/-- `z`, the smallest number of zero bytes that completes the last block: `(55 - n) mod 64` (R154). -/
def sha1PadZeros (n : Nat) : Nat :=
  ((55 - (n : Int)) % 64).toNat

/-- The padded message: `m`, `0x80`, `z` zero bytes, the bit length as 8 bytes (R154). -/
def sha1Pad (m : List Byte) : List Byte :=
  m ++ (0x80 :: List.replicate (sha1PadZeros m.length) 0) ++ be 8 (8 * m.length)

/-- The first `n` blocks of 64 bytes, in order (R154). -/
def sha1Blocks : Nat → List Byte → List (List Byte)
  | 0, _ => []
  | n + 1, m => m.take 64 :: sha1Blocks n (m.drop 64)

/-- The sixteen big-endian words `M[0]` to `M[15]` of a block (R155). -/
def blockWords (block : List Byte) : List Word32 :=
  (List.range 16).map fun j => BitVec.ofNat 32 (fromBe (slice block (4 * j) (4 * j + 4)))

/-- The next schedule word from the earlier ones, newest first: `W[t-3]`, `W[t-8]`, `W[t-14]` and `W[t-16]` are the entries
2, 7, 13 and 15 (R156). -/
def nextScheduleWord (newestFirst : List Word32) : Word32 :=
  rotl (newestFirst.getD 2 0 ^^^ newestFirst.getD 7 0 ^^^ newestFirst.getD 13 0 ^^^ newestFirst.getD 15 0) 1

/-- Put `n` more schedule words before the earlier ones, newest first (R156). -/
def extendSchedule : Nat → List Word32 → List Word32
  | 0, ws => ws
  | n + 1, ws => extendSchedule n (nextScheduleWord ws :: ws)

/-- The eighty words `W[0]` to `W[79]` of a block (R156). -/
def schedule (block : List Byte) : List Word32 :=
  (extendSchedule 64 (blockWords block).reverse).reverse

/-- `f(t; b, c, d)` (R157). -/
def roundFunction (t : Nat) (b c d : Word32) : Word32 :=
  if t < 20 then (b &&& c) ||| (~~~b &&& d)
  else if t < 40 then b ^^^ c ^^^ d
  else if t < 60 then (b &&& c) ||| (b &&& d) ||| (c &&& d)
  else b ^^^ c ^^^ d

/-- `K(t)` (R157). -/
def roundConstant (t : Nat) : Word32 :=
  if t < 20 then 0x5A827999
  else if t < 40 then 0x6ED9EBA1
  else if t < 60 then 0x8F1BBCDC
  else 0xCA62C1D6

/-- One round of the compression (R158). -/
def sha1Round (t : Nat) (w : Word32) (v : Sha1Words) : Sha1Words where
  a := rotl v.a 5 + roundFunction t v.b v.c v.d + v.e + roundConstant t + w
  b := v.a
  c := rotl v.b 30
  d := v.c
  e := v.d

/-- The rounds from round `t` on, one for each schedule word (R158). -/
def sha1Rounds : Nat → List Word32 → Sha1Words → Sha1Words
  | _, [], v => v
  | t, w :: ws, v => sha1Rounds (t + 1) ws (sha1Round t w v)

/-- Compression of one block, starting from the hash state the previous block left (R158). -/
def sha1Compress (h : Sha1Words) (block : List Byte) : Sha1Words :=
  let v := sha1Rounds 0 (schedule block) h
  { a := h.a + v.a, b := h.b + v.b, c := h.c + v.c, d := h.d + v.d, e := h.e + v.e }

/-- The digest of a final hash state: five big-endian words (R159). -/
def sha1Output (h : Sha1Words) : List Byte :=
  be 4 h.a.toNat ++ be 4 h.b.toNat ++ be 4 h.c.toNat ++ be 4 h.d.toNat ++ be 4 h.e.toNat

/-- `SHA1(m)` (R154 to R159). -/
def sha1 (m : List Byte) : List Byte :=
  sha1Output ((sha1Blocks ((sha1Pad m).length / 64) (sha1Pad m)).foldl sha1Compress sha1Initial)

end Sys2Proof.Machine
end

