-- ==== Sys2Proof/Machine/Hmac.lean ====
section
/-! DEFINITION. The keyed hash `H` = HMAC-SHA1 (R150). -/

namespace Sys2Proof.Machine

/-- `K0`: a key of more than 64 bytes hashed first, then zero bytes up to exactly 64 (R150). -/
def hmacKeyBlock (key : List Byte) : List Byte :=
  let k := if 64 < key.length then sha1 key else key
  k ++ List.replicate (64 - k.length) 0

/-- `K0[i] xor pad` for every byte of the key block (R150). -/
def hmacPad (pad : Byte) (key : List Byte) : List Byte :=
  (hmacKeyBlock key).map fun b => b ^^^ pad

/-- `HMAC-SHA1(key, msg)` (R150). -/
def hmacSha1 (key msg : List Byte) : List Byte :=
  sha1 (hmacPad 0x5c key ++ sha1 (hmacPad 0x36 key ++ msg))

end Sys2Proof.Machine
end

