-- ==== Sys2Proof/Machine/OtpCore.lean ====
section
/-! DEFINITION. The OTP core (unit U1): serialise, keyed hash, digest check, offset, window and mask, reduction, format, as one pure function (R121 to R128), for any keyed hash `H`. -/

namespace Sys2Proof.Machine

/-- Step 4, the offset: the low nibble of the digest's byte 19 (R124). -/
def digestOffset (digest : List Byte) : Nat :=
  (byteAt digest 19 &&& Config.offsetMask).toNat

/-- Step 4, the window: the four bytes at the offset as a 32-bit number (R125). -/
def digestWindow (digest : List Byte) : Option Word32 :=
  (memRead digest (digestOffset digest) Config.windowLength).map (BitVec.ofNat 32)

/-- Step 4, the mask: bit 31 cleared (R125). -/
def truncateWindow (bits : Word32) : Nat :=
  (bits &&& Config.truncMask).toNat

/-- Step 5: the remainder by the arithmetic power of ten (R126, R131). -/
def reduceOtp (truncated digits : Nat) : Nat :=
  truncated % 10 ^ digits

/-- Character `i` of the numeral: `0x30` plus the decimal digit of weight `10^(d-1-i)` (R127). -/
def otpChar (v d i : Nat) : Byte :=
  BitVec.ofNat 8 (0x30 + v / 10 ^ (d - 1 - i) % 10)

/-- Step 6: exactly `d` decimal characters, most significant first, zero-padded on the left (R127). -/
def formatOtp (v d : Nat) : List Byte :=
  (List.range d).map (otpChar v d)

/-- What the core answers (R128). -/
inductive CoreResult where
  /-- The OTP string. -/
  | otp (chars : List Byte)
  /-- The digest was not 20 bytes: the fatal fault (R123). -/
  | badDigest
  /-- The window read left the digest, where `MemRead` is not defined (R8); R53 says this never happens. -/
  | outOfBounds
  deriving DecidableEq, Repr

/-- Steps 4 to 6 on a digest of 20 bytes (R124 to R127). -/
def otpOfDigest (digest : List Byte) (d : Nat) : CoreResult :=
  match digestWindow digest with
  | some bits => .otp (formatOtp (reduceOtp (truncateWindow bits) d) d)
  | none => .outOfBounds

/-- `OTPCORE(secret, ctr, d)` for the keyed hash `hash` (R128): the secret is the key and the serialised counter the message (R122). -/
def otpCore (hash : List Byte → List Byte → List Byte) (secret : List Byte) (ctr : Word64) (d : Nat) : CoreResult :=
  let digest := hash secret (be8 ctr)
  if digest.length = Config.digestLength then otpOfDigest digest d else .badDigest

end Sys2Proof.Machine
end

