-- ==== Sys2Proof/Machine/Generate.lean ====
section
/-! DEFINITION. The GEN command (R120), for any keyed hash and for the block's own, HMAC-SHA1 (R122). -/

namespace Sys2Proof.Machine

/-- GEN with the keyed hash `hash` (R120): the phase check, `next()`, the core; a digest that is not 20 bytes is the fatal fault,
after the counter has advanced (R123). -/
def generateWith (hash : List Byte → List Byte → List Byte) (s : State) : Host.Outcome State Fault Refusal :=
  match refuseGenerate s.phase with
  | some st => .next (raise st s)
  | none =>
    match nextCounter s with
    | none => .refused .zeroTimeStep
    | some (ctr, s1) =>
      match otpCore hash (key s1) ctr s1.digits.toNat with
      | .otp chars => .next (respond .ok chars s1)
      | .badDigest => .next (raiseFatal s1)
      | .outOfBounds => .fault .bufferBounds

/-- `GEN` with `H` = HMAC-SHA1 (R120, R122). -/
def execGen (s : State) : Host.Outcome State Fault Refusal :=
  generateWith hmacSha1 s

end Sys2Proof.Machine
end

