-- ==== Sys2Proof/Machine/Stat.lean ====
section
/-! DEFINITION. The STAT command (R185). -/

namespace Sys2Proof.Machine

/-- What STAT returns after the status byte: the non-secret state (R80, R185). -/
def statPayload (s : State) : List Byte :=
  statusByte s :: s.digits :: (be8 s.counter ++ be8 s.initSeconds ++ be8 s.timeStep)

/-- `STAT`: performed in every phase; it writes no register (R185). -/
def execStat (s : State) : Host.Outcome State Fault Refusal :=
  .next (respond .ok (statPayload s) s)

end Sys2Proof.Machine
end

