-- ==== Sys2Proof/Machine/Dispatch.lean ====
section
/-! DEFINITION. One arm per command: each calls its meaning. -/

namespace Sys2Proof.Machine

def exec (i : Instr) (s : State) : Host.Outcome State Fault Refusal :=
  match i with
  | .cfgHotp digits c0 secret => Sys2Proof.Machine.execCfgHotp digits c0 secret s
  | .cfgTotp digits init step secret => Sys2Proof.Machine.execCfgTotp digits init step secret s
  | .cfgTotpd digits secret => Sys2Proof.Machine.execCfgTotpd digits secret s
  | .gen => Sys2Proof.Machine.execGen s
  | .stat => Sys2Proof.Machine.execStat s

end Sys2Proof.Machine
end

