-- ==== Sys2Proof/Machine/Perform.lean ====
section
/-! DEFINITION. What the block does with one input event: performing a frame (R210), reset (R36), reset during a command (R37), a break of the frame discipline (R236). It is written for any way of executing commands, so that the same step exists for the block's own hash (`exec`) and for every keyed hash (`execWith`, R5, R123). -/

namespace Sys2Proof.Machine

/-- A way of executing a decoded command. -/
abbrev Executor := Instr → State → Host.Outcome State Fault Refusal

/-- The commands with the keyed hash `hash` in place of the block's own: only GEN uses it (R122, "the only reader of `SECRET`"). -/
def execWith (hash : List Byte → List Byte → List Byte) : Executor
  | .cfgHotp digits c0 secret, s => execCfgHotp digits c0 secret s
  | .cfgTotp digits init step secret, s => execCfgTotp digits init step secret s
  | .cfgTotpd digits secret, s => execCfgTotpd digits secret s
  | .gen, s => generateWith hash s
  | .stat, s => execStat s

/-- `perform(F)`: a frame that does not decode answers its status and changes no register; a command is executed (R75, R210). -/
def performBy (execute : Executor) (f : Frame) (s : State) : Host.Outcome State Fault Refusal :=
  match decode f with
  | .refuse e => .next (raise (decodeStatus e) s)
  | .command i => execute i s

/-- The effect of one event on the block. A command in flight at a reset sends no response and none of its writes survive (R37). -/
def handleBy (execute : Executor) (e : Event) (s : State) : Host.Outcome State Fault Refusal :=
  match e with
  | .frame bytes now => performBy execute bytes { s with now := now }
  | .reset => .next (applyReset s)
  | .resetDuring _ => .next (applyReset s)
  | .frameDisciplineBroken => .refused .frameDiscipline

/-- One step of the block: it takes the oldest event; with none it is idle and nothing changes (R9, R58, R211). -/
def stepBy (execute : Executor) (s : State) : Host.Outcome State Fault Refusal :=
  match s.cmd with
  | [] => .next s
  | e :: rest => handleBy execute e { s with cmd := rest }

/-- `perform(F)` of this block (R210). -/
def perform (f : Frame) (s : State) : Host.Outcome State Fault Refusal :=
  performBy exec f s

/-- One step of a block whose hash unit computes `hash` (R5, R123: "hardware whose hash unit is broken" is one of them). -/
def stepWith (hash : List Byte → List Byte → List Byte) (s : State) : Host.Outcome State Fault Refusal :=
  stepBy (execWith hash) s

/-- `s` with a frame as the next event, sampled at the present `NOW`. -/
def offerFrame (f : Frame) (s : State) : State :=
  { s with cmd := .frame f s.now :: s.cmd }

end Sys2Proof.Machine
end

