-- ==== Sys2Proof/Machine/Step.lean ====
section
/-! DEFINITION. The step of the machine, and the host's way to have it perform one instruction next. -/

namespace Sys2Proof.Machine

/-- One step: one command or other input event, as an indivisible transition (R9). -/
def step (s : State) : Host.Outcome State Fault Refusal :=
  stepBy exec s

/-- `s` with the frame of a table word as what the block takes next (log entry 12): it stands for the host's sending that frame. -/
def State.withFetchWord (s : State) (nbits w : Nat) : State :=
  offerFrame (frameOfTableWord nbits w) s

end Sys2Proof.Machine
end

