-- ==== Sys2Proof/WellFormed.lean ====
section
/-! DEFINITION. Which commands a frame can express: `slen` is a 16-bit field, so a secret has 0 to `SECRET_MAX` bytes (R77). Operand values out of range (`digits`, `step`) are well formed: they are configuration errors, not encoding errors (R78). -/

namespace Sys2Proof

/-- The secret fits its 16-bit length field (R77). -/
def secretFits (secret : List Byte) : Bool :=
  decide (secret.length ≤ Config.secretMax)

/-- The command can be written as a frame (R73, R77). -/
def Instr.wf : Instr → Bool
  | .cfgHotp _ _ secret => secretFits secret
  | .cfgTotp _ _ _ secret => secretFits secret
  | .cfgTotpd _ secret => secretFits secret
  | .gen => true
  | .stat => true

end Sys2Proof
end

