-- ==== Sys2Proof/Safety.lean ====
section
/-! DEFINITION. What claims are stated in: the invariants of R34, a good final state, the checks of R210 as a table, and the relations between states. -/

namespace Sys2Proof.Machine

/-- I2: in `UNCONF` every register has its reset value (R34). -/
def unconfInv (s : State) : Prop :=
  s.mode = .inc ∧ s.secret = [] ∧ s.secretLen = 0 ∧ s.digits = 0 ∧ s.counter = 0 ∧ s.initSeconds = 0 ∧ s.timeStep = 0

/-- I3: what an engine instance looks like (R34). -/
def engineInv (s : State) : Prop :=
  (1 ≤ s.digits.toNat ∧ s.digits.toNat ≤ Config.digitsMax) ∧
  (s.secret.length = s.secretLen.toNat ∧ s.secret.length ≤ Config.secretMax) ∧
  (s.mode = .time → 1 ≤ s.timeStep.toNat ∧ s.counter = 0) ∧
  (s.mode = .inc → s.initSeconds = 0 ∧ s.timeStep = 0)

/-- The invariant between commands: I2 in `UNCONF`, I3 in `READY` and `FAULTED`; I1 holds by the type of `PHASE` (R34). -/
def StateInv (s : State) : Prop :=
  match s.phase with
  | .unconf => unconfInv s
  | .ready => engineInv s
  | .faulted => engineInv s

/-- The registers of R20, without the ports. -/
structure Registers where
  phase : Phase
  mode : Mode
  secret : List Byte
  secretLen : BitVec 16
  digits : Byte
  counter : Word64
  initSeconds : Word64
  timeStep : Word64
  deriving DecidableEq, Repr

/-- The registers a state holds. -/
def registers (s : State) : Registers where
  phase := s.phase
  mode := s.mode
  secret := s.secret
  secretLen := s.secretLen
  digits := s.digits
  counter := s.counter
  initSeconds := s.initSeconds
  timeStep := s.timeStep

/-- A run never ends well in `FAULTED` (93_implementation_defined.md U5). -/
def goodFinal (s : State) : Bool :=
  !faultOutput s

/-- A list of frames with their samples of `NOW`, as events. -/
def frameEvents (fs : List (Frame × Word64)) : List Event :=
  fs.map fun p => .frame p.1 p.2

/-- Performing a list of frames one after another, each on the state the one before left (R241); a fault or refusal ends it. -/
def performAll : List (Frame × Word64) → State → Host.Outcome State Fault Refusal
  | [], s => .next s
  | p :: rest, s =>
    match perform p.1 { s with now := p.2 } with
    | .next t => performAll rest t
    | .fault r => .fault r
    | .refused r => .refused r

/-- The digit count of a configure command. -/
def configureDigits : Instr → Option Byte
  | .cfgHotp digits _ _ => some digits
  | .cfgTotp digits _ _ _ => some digits
  | .cfgTotpd digits _ => some digits
  | .gen => none
  | .stat => none

/-- The time step a configure command names, of those that name one. -/
def namedStep : Instr → Option Word64
  | .cfgHotp .. => none
  | .cfgTotp _ _ step _ => some step
  | .cfgTotpd .. => none
  | .gen => none
  | .stat => none

/-- The wrong lengths of R208: an empty frame, a GEN or STAT frame longer than 1 byte, a configure frame shorter than its
fixed part, or one whose length differs from the fixed part plus `slen`. -/
def wrongLength (f : Frame) : Prop :=
  f = [] ∨
  ((f.head? = some 0x10 ∨ f.head? = some 0x20) ∧ f.length ≠ 1) ∨
  (f.head? = some 0x01 ∧ (f.length < 12 ∨ f.length ≠ 12 + fromBe (slice f 10 12))) ∨
  (f.head? = some 0x02 ∧ (f.length < 20 ∨ f.length ≠ 20 + fromBe (slice f 18 20))) ∨
  (f.head? = some 0x03 ∧ (f.length < 4 ∨ f.length ≠ 4 + fromBe (slice f 2 4)))

/-- Line 5 of R210: the operand checks of a configure command, the digit count before the step. -/
def operandStatus (i : Instr) : Option Byte :=
  match configureDigits i with
  | none => none
  | some digits =>
    if digits.toNat < 1 ∨ 9 < digits.toNat then some 0x01
    else if namedStep i = some 0 then some 0x02
    else none

/-- Lines 2 to 5 of R210: the status that refuses a command in a phase, if one does. -/
def commandStatus (i : Instr) (p : Phase) : Option Byte :=
  if i = .stat then none
  else if p = .faulted then some 0x80
  else if i = .gen ∧ p = .unconf then some 0x03
  else if i ≠ .gen ∧ p = .ready then some 0x03
  else operandStatus i

/-- Lines 1 to 5 of R210: the status that refuses a frame, if one does. -/
def refusalStatus (f : Frame) (p : Phase) : Option Byte :=
  match decode f with
  | .refuse .illegalOpcode => some 0x04
  | .refuse .badFrame => some 0x05
  | .command i => commandStatus i p

/-- Two states equal in everything but the secret. -/
def sameButSecret (s t : State) : Prop :=
  { s with secret := [], secretLen := 0 } = { t with secret := [], secretLen := 0 }

/-- Two states equal in everything but the sample of `NOW`. -/
def sameButNow (s t : State) : Prop :=
  { s with now := 0 } = { t with now := 0 }

/-- Two outcomes of the same kind: next states in the relation, or the same reason. -/
def relatedOutcomes (r : State → State → Prop) : Host.Outcome State Fault Refusal → Host.Outcome State Fault Refusal → Prop
  | .next s, .next t => r s t
  | .fault a, .fault b => a = b
  | .refused a, .refused b => a = b
  | _, _ => False

/-- The number whose decimal numeral is a sequence of characters `0x30` to `0x39`, most significant first. -/
def decimalValue (chars : List Byte) : Nat :=
  chars.foldl (fun acc c => 10 * acc + (c.toNat - 0x30)) 0

/-- The event the block takes next is a reset, between commands or during one. -/
def nextIsReset (s : State) : Bool :=
  match s.cmd with
  | .reset :: _ => true
  | .resetDuring _ :: _ => true
  | _ => false

end Sys2Proof.Machine
end

