-- ==== Sys2Proof/Certificates/Slice0/Obligations.lean ====
section
/-! DEFINITION. The statements for the provers. Each docstring says which words of the spec it formalises. A statement over a "next
event" is about any list of later events; `rsp` grows at its end, so `s.rsp ++ [r]` says that exactly the frame `r` was sent. -/

open Sys2Proof Sys2Proof.Machine

/-- The 20-byte secret `"12345678901234567890"` of R85. -/
def Sys2Proof.sampleSecret : List Byte :=
  [0x31, 0x32, 0x33, 0x34, 0x35, 0x36, 0x37, 0x38, 0x39, 0x30, 0x31, 0x32, 0x33, 0x34, 0x35, 0x36, 0x37, 0x38, 0x39, 0x30]

/-! ### Encoding -/

/-- The six worked encodings of the table of 30_encoding.md section 7 decode to the commands beside them. -/
def Obligations.SampleFramesDecodeAsSpecified : Prop :=
  decode ([0x01, 0x06, 0, 0, 0, 0, 0, 0, 0, 0, 0x00, 0x14] ++ sampleSecret) = .command (.cfgHotp 6 0 sampleSecret) ∧
  decode ([0x02, 0x08, 0, 0, 0, 0, 0, 0, 0, 0, 0, 0, 0, 0, 0, 0, 0, 0x1e, 0x00, 0x14] ++ sampleSecret) =
    .command (.cfgTotp 8 0 30 sampleSecret) ∧
  decode [0x02, 0x06, 0xff, 0xff, 0xff, 0xff, 0xff, 0xff, 0xff, 0xff, 0, 0, 0, 0, 0, 0, 0, 1, 0, 0] =
    .command (.cfgTotp 6 (BitVec.ofInt 64 (-1)) 1 []) ∧
  decode ([0x03, 0x06, 0x00, 0x14] ++ sampleSecret) = .command (.cfgTotpd 6 sampleSecret) ∧
  decode [0x10] = .command .gen ∧
  decode [0x20] = .command .stat

/-- Decoding the frame of a well-formed command gives that command back, every operand at every value (30_encoding.md sections 2 and 4). -/
def Obligations.DecodeOfEncodeIsTheCommand : Prop :=
  ∀ i : Instr, i.wf = true → decode (encode i) = .command i

/-- A frame that decodes is the frame of the command it decodes to, byte for byte, and that command is well formed: no padding, no
ignored bit, no second spelling (30_encoding.md sections 1, 2 and 4). -/
def Obligations.DecodedFramesAreExactlyEncodings : Prop :=
  ∀ (f : Frame) (i : Instr), decode f = .command i → i.wf = true ∧ encode i = f

/-- R207: byte 0 of a non-empty frame is no opcode; the frame is answered `E_OPCODE` in any phase and nothing else changes. -/
def Obligations.IllegalOpcodeIsRefused : Prop :=
  ∀ (s : State) (op : Byte) (tail : List Byte) (now : Word64) (rest : List Event),
    op ∉ ([0x01, 0x02, 0x03, 0x10, 0x20] : List Byte) → s.cmd = .frame (op :: tail) now :: rest →
    step s = .next { s with now := now, cmd := rest, rsp := s.rsp ++ [[0x04]] }

/-- R208: the frame is empty or has not the length its format requires; it is answered `E_FRAME` in any phase and nothing else changes. -/
def Obligations.WrongFrameLengthIsRefused : Prop :=
  ∀ (s : State) (f : Frame) (now : Word64) (rest : List Event),
    wrongLength f → s.cmd = .frame f now :: rest →
    step s = .next { s with now := now, cmd := rest, rsp := s.rsp ++ [[0x05]] }

/-! ### The step -/

/-- A step whose next event is a frame that decodes runs exactly that command, on the state with the frame taken and `NOW` at the
frame's sample; with no event the block is idle and nothing changes (the idle step and the list of events are the model's choice, log entry 1). -/
def Obligations.StepPerformsTheDecodedCommand : Prop :=
  (∀ (s : State) (f : Frame) (now : Word64) (rest : List Event) (i : Instr),
    s.cmd = .frame f now :: rest → decode f = .command i → step s = exec i { s with now := now, cmd := rest }) ∧
  (∀ s : State, s.cmd = [] → step s = .next s)

/-- The frame of a table word, offered as the next event, is what the very next step runs (the model's choice, log entry 12). -/
def Obligations.OfferedTableWordRunsNext : Prop :=
  ∀ (s : State) (nbits w : Nat) (i : Instr), decodeTableWord nbits w = some i → step (s.withFetchWord nbits w) = exec i s

/-- A list of frames leaves the state that performing them one after another gives (20_memory.md section 5; 70_reset_and_hazards.md section 3,
"the result of folding `perform`"); the later events stay untouched. -/
def Obligations.RunOfFramesFoldsPerform : Prop :=
  ∀ (fs : List (Frame × Word64)) (s : State) (rest : List Event),
    Host.Core.run core fs.length { s with cmd := frameEvents fs ++ rest } = performAll fs { s with cmd := rest }

/-- R210: the first check that fails decides the status, and a frame that a check refuses changes no register; a frame that none
refuses is performed by its command's rule and answered `OK`, except that GEN with a hash that allows it may still take the fatal fault. The performed
frames are stated under the invariant, since R107 gives GEN no meaning outside it. -/
def Obligations.ChecksAreMadeInTheFixedOrder : Prop :=
  ∀ (f : Frame) (s : State),
    (∀ c, refusalStatus f s.phase = some c → perform f s = .next { s with rsp := s.rsp ++ [[c]] }) ∧
    (StateInv s → refusalStatus f s.phase = none →
      ∃ i t payload, decode f = .command i ∧ perform f s = exec i s ∧ exec i s = .next t ∧ t.rsp = s.rsp ++ [0x00 :: payload]) ∧
    (∀ hash : List Byte → List Byte → List Byte, StateInv s → refusalStatus f s.phase = none → decode f = .command .gen →
      ∃ t, performBy (execWith hash) f s = .next t ∧
        ((∃ payload, t.rsp = s.rsp ++ [0x00 :: payload]) ∨ (t.phase = .faulted ∧ t.rsp = s.rsp ++ [[0x80]])))

/-- Every accepted frame is answered by exactly one response frame, of at least one byte, and the block is ready for the next event
(30_encoding.md section 1; 60_exceptions.md section 1; 70_reset_and_hazards.md section 3). -/
def Obligations.EveryFrameIsAnsweredOnce : Prop :=
  ∀ (s : State) (f : Frame) (now : Word64) (rest : List Event), StateInv s → s.cmd = .frame f now :: rest →
    ∃ (t : State) (st : Status) (payload : List Byte),
      step s = .next t ∧ t.cmd = rest ∧ t.rsp = s.rsp ++ [st.code :: payload] ∧ (st ≠ .ok → payload = [])

/-- A frame answered with a status other than `OK` has written no register (60_exceptions.md sections 1 and 4), the hash being HMAC-SHA1. -/
def Obligations.RefusedFramesWriteNoRegister : Prop :=
  ∀ (s t : State) (f : Frame) (now : Word64) (rest : List Event) (c : Byte) (payload : List Byte),
    s.cmd = .frame f now :: rest → step s = .next t → t.rsp = s.rsp ++ [c :: payload] → c ≠ 0x00 →
    registers t = registers s ∧ payload = []

/-- No step leaves a buffer: the fault the model keeps for a read outside one is never taken, in any state and with any keyed hash
(20_memory.md section 3). -/
def Obligations.NoReadLeavesItsBuffer : Prop :=
  (∀ (s : State) (r : Fault), step s ≠ .fault r) ∧
  (∀ (hash : List Byte → List Byte → List Byte) (s : State) (r : Fault), generateWith hash s ≠ .fault r)

/-! ### Reset and the platform -/

/-- Reset, in any phase: every register takes the reset value of the table of 10_state.md section 1, the `FAULT` output is 0, and no response is sent
(10_state.md section 5, 70_reset_and_hazards.md section 1). -/
def Obligations.ResetSetsEveryRegister : Prop :=
  (∀ (s : State) (rest : List Event), s.cmd = .reset :: rest →
    ∃ t, step s = .next t ∧ t.phase = .unconf ∧ t.mode = .inc ∧ t.secret = [] ∧ t.secretLen.toNat = 0 ∧ t.digits.toNat = 0 ∧
      t.counter.toNat = 0 ∧ t.initSeconds.toInt = 0 ∧ t.timeStep.toNat = 0 ∧ faultOutput t = false ∧
      t.rsp = s.rsp ∧ t.cmd = rest) ∧
  registers State.reset =
    { phase := .unconf, mode := .inc, secret := [], secretLen := 0, digits := 0, counter := 0, initSeconds := 0, timeStep := 0 }

/-- R37: the command in flight is abandoned; no response frame, none of its writes, and the block takes the next event next. -/
def Obligations.ResetDuringCommandAbandonsIt : Prop :=
  ∀ (s : State) (f : Frame) (rest : List Event), s.cmd = .resetDuring f :: rest →
    ∃ t, step s = .next t ∧ registers t = registers State.reset ∧ t.rsp = s.rsp ∧ t.cmd = rest

/-- A break of the frame discipline is refused, and no outcome is picked (70_reset_and_hazards.md section 2). -/
def Obligations.BrokenFrameDisciplineIsRefused : Prop :=
  ∀ (s : State) (rest : List Event), s.cmd = .frameDisciplineBroken :: rest → step s = .refused .frameDiscipline

/-! ### The configure commands -/

/-- R182: `CFG.HOTP` in `UNCONF`. With a valid digit count it writes every register and answers `[0x00]`; the first `next()` afterwards
gives `c0`, and the key is the secret. With an invalid one it answers `[0x01]` and writes nothing. -/
def Obligations.CfgHotpConstructsIncrementingEngine : Prop :=
  ∀ (s : State) (digits : Byte) (c0 : Word64) (secret : List Byte), s.phase = .unconf → secret.length ≤ 65535 →
    (1 ≤ digits.toNat ∧ digits.toNat ≤ 9 →
      ∃ t, exec (.cfgHotp digits c0 secret) s = .next t ∧
        t = { s with
              phase := .ready, mode := .inc, secret := secret, secretLen := BitVec.ofNat 16 secret.length, digits := digits,
              counter := c0, initSeconds := 0, timeStep := 0, rsp := s.rsp ++ [[0x00]] } ∧
        key t = secret ∧ (nextCounter t).map Prod.fst = some c0) ∧
    (¬(1 ≤ digits.toNat ∧ digits.toNat ≤ 9) →
      exec (.cfgHotp digits c0 secret) s = .next { s with rsp := s.rsp ++ [[0x01]] })

/-- R183: `CFG.TOTP` in `UNCONF`. The digit check comes before the step check; with both passed it writes every register, `COUNTER` 0 among
them, and answers `[0x00]`; the key is the secret. -/
def Obligations.CfgTotpConstructsTimeDerivedEngine : Prop :=
  ∀ (s : State) (digits : Byte) (init step : Word64) (secret : List Byte), s.phase = .unconf → secret.length ≤ 65535 →
    (1 ≤ digits.toNat ∧ digits.toNat ≤ 9 → 1 ≤ step.toNat →
      ∃ t, exec (.cfgTotp digits init step secret) s = .next t ∧
        t = { s with
              phase := .ready, mode := .time, secret := secret, secretLen := BitVec.ofNat 16 secret.length, digits := digits,
              counter := 0, initSeconds := init, timeStep := step, rsp := s.rsp ++ [[0x00]] } ∧
        key t = secret) ∧
    (1 ≤ digits.toNat ∧ digits.toNat ≤ 9 → step.toNat = 0 →
      exec (.cfgTotp digits init step secret) s = .next { s with rsp := s.rsp ++ [[0x02]] }) ∧
    (¬(1 ≤ digits.toNat ∧ digits.toNat ≤ 9) →
      exec (.cfgTotp digits init step secret) s = .next { s with rsp := s.rsp ++ [[0x01]] })

/-- R184: `CFG.TOTPD` has in every state the outcome of `CFG.TOTP` with init 0 and step 30; in `UNCONF` with a valid digit count and a secret that a frame
can carry that is the engine with those values, the key being the secret; with an invalid digit count it is `[0x01]`, and never `E_STEP`. -/
def Obligations.CfgTotpdSuppliesTheDefaults : Prop :=
  ∀ (s : State) (digits : Byte) (secret : List Byte),
    exec (.cfgTotpd digits secret) s = exec (.cfgTotp digits 0 30 secret) s ∧
    (s.phase = .unconf → secret.length ≤ 65535 → 1 ≤ digits.toNat ∧ digits.toNat ≤ 9 →
      ∃ t, exec (.cfgTotpd digits secret) s = .next t ∧
        t = { s with
              phase := .ready, mode := .time, secret := secret, secretLen := BitVec.ofNat 16 secret.length, digits := digits,
              counter := 0, initSeconds := 0, timeStep := 30, rsp := s.rsp ++ [[0x00]] } ∧
        key t = secret) ∧
    (s.phase = .unconf → ¬(1 ≤ digits.toNat ∧ digits.toNat ≤ 9) →
      exec (.cfgTotpd digits secret) s = .next { s with rsp := s.rsp ++ [[0x01]] }) ∧
    exec (.cfgTotpd digits secret) s ≠ .next { s with rsp := s.rsp ++ [[0x02]] }

/-- R181: a configure command in `UNCONF` is refused with `E_DIGITS`, and nothing written, exactly when its digit count is not 1 to 9. -/
def Obligations.DigitCountIsCheckedAtConstruction : Prop :=
  ∀ (s : State) (i : Instr) (digits : Byte), s.phase = .unconf → configureDigits i = some digits →
    (exec i s = .next { s with rsp := s.rsp ++ [[0x01]] } ↔ ¬(1 ≤ digits.toNat ∧ digits.toNat ≤ 9))

/-- R202: `E_STEP` is the answer exactly of `CFG.TOTP` in `UNCONF` with step 0 and a valid digit count; nothing is written. -/
def Obligations.ZeroStepIsRefusedByCfgTotpOnly : Prop :=
  ∀ (s : State) (i : Instr),
    exec i s = .next { s with rsp := s.rsp ++ [[0x02]] } ↔
      ∃ (digits : Byte) (init : Word64) (secret : List Byte),
        i = .cfgTotp digits init 0 secret ∧ s.phase = .unconf ∧ 1 ≤ digits.toNat ∧ digits.toNat ≤ 9

/-- R205: GEN in `UNCONF`, and any configure command in `READY` whatever its operands, are refused with `E_STATE`; no register is written. -/
def Obligations.WrongPhaseIsRefused : Prop :=
  (∀ s : State, s.phase = .unconf → exec .gen s = .next { s with rsp := s.rsp ++ [[0x03]] }) ∧
  (∀ (s : State) (i : Instr) (digits : Byte), s.phase = .ready → configureDigits i = some digits →
    exec i s = .next { s with rsp := s.rsp ++ [[0x03]] })

/-- R204: in `FAULTED` every command but STAT is refused with `E_FATAL` and changes nothing. -/
def Obligations.FaultedRefusesAllButStat : Prop :=
  ∀ (s : State) (i : Instr), s.phase = .faulted → i ≠ .stat → exec i s = .next { s with rsp := s.rsp ++ [[0x80]] }

/-! ### STAT -/

/-- R185: STAT is performed in every phase, writes no register, and answers the 27 bytes of the non-secret state; the secret has no
influence on them, and with `MODE = TIME` the counter field reads 0. -/
def Obligations.StatReturnsTheNonSecretState : Prop :=
  ∀ s : State,
    ∃ r, exec .stat s = .next { s with rsp := s.rsp ++ [r] } ∧
      r = [0x00, statusByte s, s.digits] ++ be 8 s.counter.toNat ++ be 8 (s.initSeconds.toInt % 2 ^ 64).toNat ++ be 8 s.timeStep.toNat ∧
      r.length = 27 ∧
      (∀ (secret : List Byte) (len : BitVec 16), 0x00 :: statPayload { s with secret := secret, secretLen := len } = r) ∧
      (StateInv s → s.mode = .time → slice r 3 11 = List.replicate 8 0)

/-- R28: `STATUS`, the first byte STAT returns after its status code, has `PHASE` in bits 1:0, `MODE` in bit 2 and 0 in bits 7:3, takes only the five values
listed, and is a view: it depends on `PHASE` and `MODE` alone. -/
def Obligations.StatusByteLayout : Prop :=
  ∀ s : State,
    (statusByte s).extractLsb' 0 2 = (match s.phase with | .unconf => 0 | .ready => 1 | .faulted => 2 : BitVec 2) ∧
    (statusByte s).extractLsb' 2 1 = (match s.mode with | .inc => 0 | .time => 1 : BitVec 1) ∧
    (statusByte s).extractLsb' 3 5 = (0 : BitVec 5) ∧
    (StateInv s → statusByte s ∈ ([0x00, 0x01, 0x05, 0x02, 0x06] : List Byte)) ∧
    (∃ later, exec .stat s = .next { s with rsp := s.rsp ++ [0x00 :: statusByte s :: later] }) ∧
    (∀ t : State, t.phase = s.phase → t.mode = s.mode → statusByte t = statusByte s)

/-! ### The Counter Source -/

/-- R101: `NEXT.INC` returns the old `COUNTER` and advances it by 1 modulo 2^64; no other field is read or written. -/
def Obligations.NextIncReturnsOldAndAdvances : Prop :=
  ∀ s : State, s.mode = .inc →
    ∃ t, nextCounter s = some (s.counter, t) ∧ t.counter.toNat = (s.counter.toNat + 1) % 2 ^ 64 ∧
      t = { s with counter := t.counter }

/-- R103: `NEXT.TIME` returns, modulo 2^64, the greatest integer `q` with `q * TIME_STEP <= NOW - INIT_SECONDS`, the difference being exact,
and writes nothing. -/
def Obligations.NextTimeIsFloorOfExactQuotient : Prop :=
  ∀ s : State, s.mode = .time → 1 ≤ s.timeStep.toNat →
    ∃ (ctr : Word64) (q : Int), nextCounter s = some (ctr, s) ∧
      q * s.timeStep.toNat ≤ s.now.toInt - s.initSeconds.toInt ∧
      s.now.toInt - s.initSeconds.toInt < (q + 1) * s.timeStep.toNat ∧
      (ctr.toNat : Int) = q % 2 ^ 64

/-- All samples of one bucket give that bucket's counter, and samples of adjacent buckets give different counters
(40_counter_source.md section 3, laws T2 and T3, which the spec marks as derived). -/
def Obligations.TimeBucketsFixTheCounter : Prop :=
  (∀ (now init step : Word64) (k : Int), 1 ≤ step.toNat →
    init.toInt + k * step.toNat ≤ now.toInt → now.toInt < init.toInt + (k + 1) * step.toNat →
    timeCounter now init step = BitVec.ofInt 64 k) ∧
  (∀ (now1 now2 init step : Word64) (k : Int), 1 ≤ step.toNat →
    init.toInt + k * step.toNat ≤ now1.toInt → now1.toInt < init.toInt + (k + 1) * step.toNat →
    init.toInt + (k + 1) * step.toNat ≤ now2.toInt → now2.toInt < init.toInt + (k + 2) * step.toNat →
    timeCounter now1 init step ≠ timeCounter now2 init step)

/-- For an elapsed time of 0 or more the counter is the quotient itself: nothing is lost, although the difference may need 65 bits
(40_counter_source.md section 3, the range of the arithmetic). -/
def Obligations.NonNegativeElapsedIsExactQuotient : Prop :=
  ∀ now init step : Word64, 1 ≤ step.toNat → init.toInt ≤ now.toInt →
    (timeCounter now init step).toNat = (now.toInt - init.toInt).toNat / step.toNat

/-- For a negative elapsed time the counter is 2^64 less the elapsed steps rounded up (40_counter_source.md section 3, negative elapsed time: floor,
then modulo 2^64, the spec's own decision D11). -/
def Obligations.NegativeElapsedWrapsTheFloor : Prop :=
  ∀ now init step : Word64, 1 ≤ step.toNat → now.toInt < init.toInt →
    (timeCounter now init step).toNat =
      2 ^ 64 - ((init.toInt - now.toInt).toNat + (step.toNat - 1)) / step.toNat

/-- In a state with `MODE = TIME` and `TIME_STEP = 0`, which no run reaches, GEN is refused and gives no value (40_counter_source.md section 3, a rule the spec
marks as derived; log entry 8). -/
def Obligations.ZeroTimeStepHasNoMeaning : Prop :=
  ∀ s : State, s.phase = .ready → s.mode = .time → s.timeStep.toNat = 0 → exec .gen s = .refused .zeroTimeStep

/-! ### The OTP core -/

/-- R121: the message is the counter as 8 bytes, the most significant first. -/
def Obligations.CounterIsSerialisedBigEndian : Prop :=
  ∀ ctr : Word64, (be8 ctr).length = 8 ∧ fromBe (be8 ctr) = ctr.toNat ∧
    ∀ j, j < 8 → byteAt (be8 ctr) j = ctr.extractLsb' (8 * (7 - j)) 8

/-- R124 and R125: the offset is the low nibble of byte 19; the window is the four bytes from the offset on, big-endian and unsigned, always
inside the digest; the mask clears bit 31 and keeps bits 30:0. -/
def Obligations.WindowIsFourBytesAtTheOffset : Prop :=
  ∀ digest : List Byte, digest.length = 20 →
    digestOffset digest = (byteAt digest 19).toNat % 16 ∧
    ∃ bits : Word32, digestWindow digest = some bits ∧
      bits.toNat = (byteAt digest (digestOffset digest)).toNat * 2 ^ 24 + (byteAt digest (digestOffset digest + 1)).toNat * 2 ^ 16 +
        (byteAt digest (digestOffset digest + 2)).toNat * 2 ^ 8 + (byteAt digest (digestOffset digest + 3)).toNat ∧
      truncateWindow bits = bits.toNat % 2 ^ 31

/-- R126: the reduction is the remainder by the arithmetic power of ten; from ten digits on it changes nothing. -/
def Obligations.ReductionIsRemainderByPowerOfTen : Prop :=
  ∀ truncated digits : Nat, truncated < 2 ^ 31 → 1 ≤ digits →
    reduceOtp truncated digits = truncated % 10 ^ digits ∧ reduceOtp truncated digits < 10 ^ digits ∧
    (10 ≤ digits → reduceOtp truncated digits = truncated)

/-- R127: the string has exactly `d` characters, each `0x30` plus the decimal digit of its weight, and is the numeral of the value. -/
def Obligations.FormatIsTheZeroPaddedNumeral : Prop :=
  ∀ v d : Nat, v < 10 ^ d →
    (formatOtp v d).length = d ∧
    (∀ j, j < d → ∃ digit, digit < 10 ∧ digit = v / 10 ^ (d - 1 - j) % 10 ∧ (byteAt (formatOtp v d) j).toNat = 0x30 + digit) ∧
    decimalValue (formatOtp v d) = v

/-- The core as one function (41_otp_engine.md section 3): on every keyed hash that gives 20 bytes for this key and counter, the string is the numeral
of the masked window modulo the power of ten; on any other digest length it is the fatal fault. -/
def Obligations.CoreComposesItsStages : Prop :=
  ∀ (hash : List Byte → List Byte → List Byte) (secret : List Byte) (ctr : Word64) (d : Nat),
    ((hash secret (be 8 ctr.toNat)).length = 20 →
      otpCore hash secret ctr d =
        .otp (formatOtp (fromBe (slice (hash secret (be 8 ctr.toNat)) (digestOffset (hash secret (be 8 ctr.toNat)))
          (digestOffset (hash secret (be 8 ctr.toNat)) + 4)) % 2 ^ 31 % 10 ^ d) d)) ∧
    ((hash secret (be 8 ctr.toNat)).length ≠ 20 → otpCore hash secret ctr d = .badDigest)

/-! ### GEN -/

/-- GEN in `READY` with `MODE = INC`: it answers `OK` with the core's string for the old counter, advances `COUNTER` by 1, and changes nothing
else (41_otp_engine.md sections 1 and 3, laws G3 and G5). -/
def Obligations.GenIncAnswersAndAdvances : Prop :=
  ∀ s : State, s.phase = .ready → s.mode = .inc →
    ∃ chars, otpCore hmacSha1 (key s) s.counter s.digits.toNat = .otp chars ∧
      exec .gen s = .next { s with counter := s.counter + 1, rsp := s.rsp ++ [0x00 :: chars] }

/-- GEN in `READY` with `MODE = TIME` and a time step of at least 1: it answers `OK` with the core's string for the time-derived counter and
changes no register (41_otp_engine.md sections 1 and 3, laws G3 and G5). -/
def Obligations.GenTimeAnswersAndWritesNothing : Prop :=
  ∀ s : State, s.phase = .ready → s.mode = .time → 1 ≤ s.timeStep.toNat →
    ∃ chars, otpCore hmacSha1 (key s) (timeCounter s.now s.initSeconds s.timeStep) s.digits.toNat = .otp chars ∧
      exec .gen s = .next { s with rsp := s.rsp ++ [0x00 :: chars] }

/-- The payload of an `OK` response to GEN has exactly `DIGITS` bytes, each in 0x30 to 0x39, for every keyed hash (41_otp_engine.md section 3, law G2). -/
def Obligations.GenStringHasDigitsDecimalCharacters : Prop :=
  ∀ (hash : List Byte → List Byte → List Byte) (s t : State) (chars : List Byte),
    generateWith hash s = .next t → t.rsp = s.rsp ++ [0x00 :: chars] →
    chars.length = s.digits.toNat ∧ ∀ c ∈ chars, 0x30 ≤ c.toNat ∧ c.toNat ≤ 0x39

/-- Two performed GEN commands whose keys, counters and digit counts agree answer the same string, whichever variant gave the counter and
whatever came before (41_otp_engine.md section 3, law G1; 43_configuration.md section 3). -/
def Obligations.GenStringDependsOnlyOnKeyCounterDigits : Prop :=
  ∀ (s s' s1 s1' t t' : State) (ctr : Word64) (chars chars' : List Byte),
    s.phase = .ready → s'.phase = .ready → nextCounter s = some (ctr, s1) → nextCounter s' = some (ctr, s1') →
    key s = key s' → s.digits = s'.digits →
    exec .gen s = .next t → exec .gen s' = .next t' →
    t.rsp = s.rsp ++ [0x00 :: chars] → t'.rsp = s'.rsp ++ [0x00 :: chars'] → chars = chars'

/-- For every keyed hash whose digest is not 20 bytes, GEN in `READY` takes the fatal fault: `PHASE` becomes `FAULTED`, the response is `[0x80]`,
the `FAULT` output is 1, and the counter advance of step 1 stands (41_otp_engine.md section 1; 60_exceptions.md section 2). -/
def Obligations.FatalDigestFaultsForEveryHash : Prop :=
  ∀ (hash : List Byte → List Byte → List Byte) (s s1 : State) (ctr : Word64), s.phase = .ready →
    nextCounter s = some (ctr, s1) → (hash (key s) (be 8 ctr.toNat)).length ≠ 20 →
    ∃ t, generateWith hash s = .next t ∧
      t = { s with phase := .faulted, counter := t.counter, rsp := s.rsp ++ [[0x80]] } ∧
      t.counter = (if s.mode = .inc then s.counter + 1 else s.counter) ∧ faultOutput t = true

/-- From a HOTP engine, `n` GEN frames in a row use the counters `c0`, `c0+1`, up to `c0+n-1` modulo 2^64, in that order and each once, answer their
strings, and leave `COUNTER` at `c0+n`, whatever `NOW` is at each (40_counter_source.md section 2, the sequence law, which the spec marks as derived;
41_otp_engine.md section 3). -/
def Obligations.HotpRunUsesConsecutiveCounters : Prop :=
  ∀ (nows : List Word64) (s : State), s.phase = .ready → s.mode = .inc →
    ∃ t, Host.Core.run core nows.length { s with cmd := (nows.map fun now => Event.frame [0x10] now) ++ s.cmd } = .next t ∧
      registers t = { registers s with counter := s.counter + BitVec.ofNat 64 nows.length } ∧ t.cmd = s.cmd ∧
      ∃ strings : List (List Byte), strings.length = nows.length ∧ t.rsp = s.rsp ++ strings.map (fun chars => 0x00 :: chars) ∧
        ∀ j (h : j < strings.length),
          otpCore hmacSha1 (key s) (s.counter + BitVec.ofNat 64 j) s.digits.toNat = .otp strings[j]

/-! ### The hash -/

/-- R154: the padded message is the message, `0x80`, the least number of zero bytes that completes a block, and the bit length as 8 bytes; it is
cut into blocks of 64 bytes, in order. -/
def Obligations.ShaPaddingCompletesBlocks : Prop :=
  ∀ m : List Byte, ∃ z : Nat,
    sha1Pad m = m ++ [0x80] ++ List.replicate z 0 ++ be 8 (8 * m.length) ∧ (z : Int) = (55 - (m.length : Int)) % 64 ∧
    (sha1Pad m).length % 64 = 0 ∧ (∀ z', z' < z → (m.length + 1 + z' + 8) % 64 ≠ 0) ∧
    (sha1Blocks ((sha1Pad m).length / 64) (sha1Pad m)).flatten = sha1Pad m ∧
    ∀ b ∈ sha1Blocks ((sha1Pad m).length / 64) (sha1Pad m), b.length = 64

/-- R156: a block's schedule has eighty words, the first sixteen the block's own and each later one by the recurrence. -/
def Obligations.ShaScheduleFollowsRecurrence : Prop :=
  ∀ block : List Byte,
    (schedule block).length = 80 ∧
    (∀ t, t < 16 → (schedule block).getD t 0 = BitVec.ofNat 32 (fromBe (slice block (4 * t) (4 * t + 4)))) ∧
    (∀ t, 16 ≤ t → t < 80 → (schedule block).getD t 0 =
      rotl ((schedule block).getD (t - 3) 0 ^^^ (schedule block).getD (t - 8) 0 ^^^ (schedule block).getD (t - 14) 0 ^^^
        (schedule block).getD (t - 16) 0) 1)

/-- Keys of at most 64 bytes that differ only in trailing zero bytes give the same digest, and a longer key is as good as its hash
(42_hmac_sha1.md section 1, which the spec marks as derived). -/
def Obligations.HmacKeysWithTheSameKeyBlockAgree : Prop :=
  (∀ (k msg : List Byte) (n : Nat), k.length + n ≤ 64 → hmacSha1 (k ++ List.replicate n 0) msg = hmacSha1 k msg) ∧
  (∀ k msg : List Byte, 64 < k.length → hmacSha1 k msg = hmacSha1 (sha1 k) msg)

/-! ### Invariants and frames -/

/-- The invariant holds at reset (10_state.md sections 4 and 5). -/
def Obligations.InvariantHoldsAtReset : Prop :=
  StateInv State.reset

/-- Every step keeps the invariants I2 and I3 of 10_state.md section 4: in `UNCONF` every register has its reset value; in `READY` and `FAULTED` the
digit count, the secret's length, the time step and the unused registers are as I3 says. -/
def Obligations.StepKeepsInvariant : Prop :=
  ∀ s t : State, StateInv s → step s = .next t → StateInv t

/-- Every step of a block with any keyed hash keeps the invariant, the fatal fault included (10_state.md section 4; 60_exceptions.md section 2). -/
def Obligations.StepKeepsInvariantForEveryHash : Prop :=
  ∀ (hash : List Byte → List Byte → List Byte) (s t : State), StateInv s → stepWith hash s = .next t → StateInv t

/-- With any keyed hash the fault is sticky: from `FAULTED` no event but a reset changes a register, and the hash is never run again, so every hash
gives the same step (60_exceptions.md sections 2 and 4; 10_state.md section 4, I5). -/
def Obligations.FatalFaultIsStickyForEveryHash : Prop :=
  ∀ (hash hash' : List Byte → List Byte → List Byte) (s : State), s.phase = .faulted →
    stepWith hash s = stepWith hash' s ∧
    (nextIsReset s = false → ∀ t, stepWith hash s = .next t → registers t = registers s)

/-- The step of this block is the step with the keyed hash HMAC-SHA1 (00_scope.md section 3, the parameter `H`). -/
def Obligations.StepIsTheStepWithHmacSha1 : Prop :=
  ∀ s : State, stepWith hmacSha1 s = step s

/-- The phase changes exactly so: reset to `UNCONF`; a successful configure command from `UNCONF` to `READY`; the fatal fault of GEN, with a hash
that allows one, from `READY` to `FAULTED` (10_state.md section 2, `PHASE`). -/
def Obligations.PhaseChangesExactlyAsListed : Prop :=
  (∀ s t : State, step s = .next t →
    (nextIsReset s = true → t.phase = .unconf) ∧
    (nextIsReset s = false → t.phase ≠ s.phase →
      s.phase = .unconf ∧ t.phase = .ready ∧ t.rsp = s.rsp ++ [[0x00]] ∧
      ∃ f now rest i digits, s.cmd = .frame f now :: rest ∧ decode f = .command i ∧ configureDigits i = some digits)) ∧
  (∀ (s t : State) (i : Instr) (digits : Byte), s.phase = .unconf → configureDigits i = some digits → exec i s = .next t →
    t.rsp = s.rsp ++ [[0x00]] → t.phase = .ready) ∧
  (∀ (hash : List Byte → List Byte → List Byte) (s t : State), generateWith hash s = .next t → t.phase ≠ s.phase →
    s.phase = .ready ∧ t.phase = .faulted ∧ t.rsp = s.rsp ++ [[0x80]]) ∧
  (∀ (hash : List Byte → List Byte → List Byte) (s t : State), s.phase = .ready → generateWith hash s = .next t →
    t.rsp = s.rsp ++ [[0x80]] → t.phase = .faulted)

/-- After construction and until reset no command changes a register but GEN with `MODE = INC` in `READY`, which changes `COUNTER` alone; in `FAULTED` nothing
changes (10_state.md section 4, I4 and I5; section 2, the counter is the sole mutable state). -/
def Obligations.OnlyTheCounterMovesUntilReset : Prop :=
  ∀ s t : State, step s = .next t → s.phase ≠ .unconf → nextIsReset s = false →
    registers t = registers s ∨
    (s.phase = .ready ∧ s.mode = .inc ∧ (∃ now rest, s.cmd = .frame [0x10] now :: rest) ∧
      registers t = { registers s with counter := s.counter + 1 })

/-- The frame of the configure commands: the ports change by one response; outside `UNCONF` no register changes, and in `UNCONF` either none
changes or the engine is constructed (43_configuration.md section 1). -/
def Obligations.ConfigureFrame : Prop :=
  ∀ (s t : State) (i : Instr) (digits : Byte), configureDigits i = some digits → exec i s = .next t →
    t.now = s.now ∧ t.cmd = s.cmd ∧ (∃ c, t.rsp = s.rsp ++ [[c]]) ∧
    (registers t = registers s ∨ (s.phase = .unconf ∧ t.phase = .ready ∧ t.digits = digits ∧ t.rsp = s.rsp ++ [[0x00]]))

/-- The frame of GEN: the phase, the mode, every byte of the secret, its length, the digit count, the time registers and the other ports are unchanged;
`COUNTER` changes only in `READY` with `MODE = INC` (41_otp_engine.md sections 1 and 3). -/
def Obligations.GenFrame : Prop :=
  ∀ s t : State, exec .gen s = .next t →
    t.phase = s.phase ∧ t.mode = s.mode ∧ t.secret = s.secret ∧ t.secretLen = s.secretLen ∧ t.digits = s.digits ∧
    t.initSeconds = s.initSeconds ∧ t.timeStep = s.timeStep ∧ t.now = s.now ∧ t.cmd = s.cmd ∧ (∃ r, t.rsp = s.rsp ++ [r]) ∧
    (¬(s.phase = .ready ∧ s.mode = .inc) → t.counter = s.counter)

/-- No response but GEN's in `READY` and no register but the secret itself depends on the secret: two states that differ only in it
answer every other event alike (10_state.md sections 2 and 3; 20_memory.md section 4; 60_exceptions.md section 5). -/
def Obligations.SecretInfluencesOnlyGen : Prop :=
  ∀ s s' : State, sameButSecret s s' →
    (s.phase = .ready → ∀ now rest, s.cmd ≠ .frame [0x10] now :: rest) →
    relatedOutcomes sameButSecret (step s) (step s')

/-- The sample of `NOW` has no influence on any command but GEN in `READY` with `MODE = TIME` (40_counter_source.md section 3, sampling of `NOW`). -/
def Obligations.ClockInfluencesOnlyTimeDerivedGen : Prop :=
  ∀ (i : Instr) (s s' : State), sameButNow s s' → ¬(i = .gen ∧ s.phase = .ready ∧ s.mode = .time) →
    relatedOutcomes sameButNow (exec i s) (exec i s')
end

