-- ==== Sys2Proof/Laws/Bytes.lean ====
section
/-! SUPPORT. Byte order: lengths of `be`, and `be` and `fromBe` undo each other. -/

namespace Sys2Proof.Machine

@[simp] theorem be_length (n v : Nat) : (be n v).length = n := by
  induction n with
  | zero => rfl
  | succ n ih => simp [be, ih]

@[simp] theorem be8_length (w : Word64) : (be8 w).length = 8 := be_length 8 _

theorem fromBe_lt (bs : List Byte) : fromBe bs < 256 ^ bs.length := by
  induction bs with
  | nil => simp [fromBe]
  | cons b bs ih =>
    have hb : b.toNat < 256 := b.isLt
    have : b.toNat * 256 ^ bs.length + 256 ^ bs.length ≤ 256 * 256 ^ bs.length := by
      rw [← Nat.succ_mul]; exact Nat.mul_le_mul_right _ hb
    simp only [fromBe, List.length_cons, Nat.pow_succ]
    omega

theorem fromBe_be (n v : Nat) : fromBe (be n v) = v % 256 ^ n := by
  induction n with
  | zero => simp [be, fromBe, Nat.mod_one]
  | succ n ih =>
    have h : v % 256 ^ (n + 1) = v % 256 ^ n + 256 ^ n * (v / 256 ^ n % 256) := by
      rw [Nat.pow_succ]; exact Nat.mod_mul
    simp only [be, fromBe, be_length, ih, BitVec.toNat_ofNat, h]
    rw [Nat.mul_comm, Nat.add_comm]

/-- A big-endian field reads back as the number written, when the number fits. -/
theorem fromBe_be_of_lt {n v : Nat} (h : v < 256 ^ n) : fromBe (be n v) = v := by
  rw [fromBe_be, Nat.mod_eq_of_lt h]

theorem fromBe_be8 (w : Word64) : fromBe (be8 w) = w.toNat :=
  fromBe_be_of_lt (by have := w.isLt; norm_num; omega)

theorem be_congr_mod (n a m : Nat) : be n (a * 256 ^ n + m) = be n m := by
  induction n generalizing a with
  | zero => rfl
  | succ n ih =>
    have hp : 0 < 256 ^ n := Nat.pow_pos (by decide)
    have e : a * 256 ^ (n + 1) + m = (a * 256) * 256 ^ n + m := by rw [Nat.pow_succ]; ring
    have hd : (a * 256 ^ (n + 1) + m) / 256 ^ n = a * 256 + m / 256 ^ n := by
      rw [e, Nat.add_comm, Nat.add_mul_div_right _ _ hp, Nat.add_comm]
    simp only [be, hd]
    congr 1
    · apply BitVec.eq_of_toNat_eq
      simp only [BitVec.toNat_ofNat]
      omega
    · rw [e]; exact ih _

theorem be_fromBe (bs : List Byte) : be bs.length (fromBe bs) = bs := by
  induction bs with
  | nil => rfl
  | cons b bs ih =>
    have hp : 0 < 256 ^ bs.length := Nat.pow_pos (by decide)
    simp only [List.length_cons, be, fromBe, be_congr_mod, ih]
    congr 1
    rw [Nat.add_comm, Nat.add_mul_div_right _ _ hp, Nat.div_eq_of_lt (fromBe_lt bs), Nat.zero_add]
    simp

theorem be_fromBe_of_length {bs : List Byte} {n : Nat} (h : bs.length = n) : be n (fromBe bs) = bs := by
  subst h; exact be_fromBe bs

@[simp] theorem slice_length (bs : List Byte) (a b : Nat) : (slice bs a b).length = min (b - a) (bs.length - a) := by
  simp [slice]

theorem be8_fieldU64 {bs : List Byte} {a : Nat} (h : a + 8 ≤ bs.length) : be8 (fieldU64 bs a) = slice bs a (a + 8) := by
  have hl : (slice bs a (a + 8)).length = 8 := by simp; omega
  have hlt := fromBe_lt (slice bs a (a + 8))
  rw [hl] at hlt
  have : (fieldU64 bs a).toNat = fromBe (slice bs a (a + 8)) := by
    simp only [fieldU64, BitVec.toNat_ofNat]
    exact Nat.mod_eq_of_lt (hlt.trans_eq (by norm_num))
  rw [be8, this, be_fromBe_of_length hl]

theorem be_fieldU16 {bs : List Byte} {a : Nat} (h : a + 2 ≤ bs.length) : be 2 (fieldU16 bs a) = slice bs a (a + 2) :=
  be_fromBe_of_length (by simp; omega)

theorem fieldU16_le {bs : List Byte} {a : Nat} : fieldU16 bs a ≤ 65535 := by
  have h := fromBe_lt (slice bs a (a + 2))
  have hl : (slice bs a (a + 2)).length ≤ 2 := by simp
  have hp : 256 ^ (slice bs a (a + 2)).length ≤ 65536 := Nat.pow_le_pow_right (n := 256) (by decide) hl
  exact Nat.le_of_lt_succ (h.trans_le hp)

/-- `MemRead` inside its buffer. -/
theorem memRead_eq {bs : List Byte} {a n : Nat} (h : a + n ≤ bs.length) :
    memRead bs a n = some (fromBe (slice bs a (a + n))) := by
  simp [memRead, h]

end Sys2Proof.Machine
end

