-- ==== Sys2Proof/Laws/Hash.lean ====
section
/-! SUPPORT. Lengths in SHA-1 and HMAC-SHA1. -/

namespace Sys2Proof.Machine

@[simp] theorem sha1Output_length (h : Sha1Words) : (sha1Output h).length = 20 := by
  simp [sha1Output]

@[simp] theorem sha1_length (m : List Byte) : (sha1 m).length = 20 :=
  sha1Output_length _

theorem hmacKeyBlock_length (key : List Byte) : (hmacKeyBlock key).length = 64 := by
  unfold hmacKeyBlock
  split
  · simp
  · simp; omega

theorem sha1PadZeros_lt (n : Nat) : sha1PadZeros n < 64 := by
  unfold sha1PadZeros; omega

theorem sha1Pad_length (m : List Byte) : (sha1Pad m).length = m.length + 9 + sha1PadZeros m.length := by
  simp [sha1Pad]; omega

theorem sha1Blocks_length_of_mem {n : Nat} {m b : List Byte} (hm : m.length = 64 * n) (hb : b ∈ sha1Blocks n m) :
    b.length = 64 := by
  induction n generalizing m with
  | zero => simp [sha1Blocks] at hb
  | succ n ih =>
    rcases List.mem_cons.1 hb with rfl | hb
    · simp; omega
    · exact ih (by simp; omega) hb

theorem sha1Blocks_flatten {n : Nat} {m : List Byte} (hm : m.length = 64 * n) : (sha1Blocks n m).flatten = m := by
  induction n generalizing m with
  | zero => simpa [sha1Blocks] using (List.eq_nil_of_length_eq_zero (by omega)).symm
  | succ n ih => simp [sha1Blocks, ih (m := m.drop 64) (by simp; omega)]

end Sys2Proof.Machine
end

