-- ==== Sys2Proof/Laws/OtpCore.lean ====
section
/-! SUPPORT. The OTP core: the offset is at most 15, the window is in bounds, the core answers one of two ways. -/

namespace Sys2Proof.Machine

theorem digestOffset_eq (digest : List Byte) : digestOffset digest = (byteAt digest 19).toNat % 16 := by
  simp only [digestOffset, Config.offsetMask, BitVec.toNat_and]
  exact Nat.and_two_pow_sub_one_eq_mod _ 4

theorem digestOffset_le (digest : List Byte) : digestOffset digest ≤ 15 := by
  rw [digestOffset_eq]; omega

/-- The window of a 20-byte digest is always in bounds (R53). -/
theorem digestWindow_eq {digest : List Byte} (h : digest.length = 20) :
    digestWindow digest = some (BitVec.ofNat 32 (fromBe (slice digest (digestOffset digest) (digestOffset digest + 4)))) := by
  have := digestOffset_le digest
  simp [digestWindow, Config.windowLength, memRead_eq (bs := digest) (a := digestOffset digest) (n := 4) (by omega)]

theorem truncateWindow_eq (bits : Word32) : truncateWindow bits = bits.toNat % 2 ^ 31 := by
  simp only [truncateWindow, Config.truncMask, BitVec.toNat_and]
  exact Nat.and_two_pow_sub_one_eq_mod _ 31

theorem truncateWindow_ofNat (n : Nat) : truncateWindow (BitVec.ofNat 32 n) = n % 2 ^ 31 := by
  rw [truncateWindow_eq, BitVec.toNat_ofNat]; omega

@[simp] theorem formatOtp_length (v d : Nat) : (formatOtp v d).length = d := by
  simp [formatOtp]

theorem otpChar_toNat (v d i : Nat) : (otpChar v d i).toNat = 0x30 + v / 10 ^ (d - 1 - i) % 10 := by
  simp only [otpChar, BitVec.toNat_ofNat]; omega

/-- The core on a keyed hash that gives 20 bytes. -/
theorem otpCore_of_length {hash : List Byte → List Byte → List Byte} {k : List Byte} {ctr : Word64}
    (h : (hash k (be8 ctr)).length = 20) (d : Nat) : otpCore hash k ctr d = otpOfDigest (hash k (be8 ctr)) d := by
  simp [otpCore, Config.digestLength, h]

/-- The core on a keyed hash that does not give 20 bytes (R123). -/
theorem otpCore_badDigest {hash : List Byte → List Byte → List Byte} {k : List Byte} {ctr : Word64}
    (h : (hash k (be8 ctr)).length ≠ 20) (d : Nat) : otpCore hash k ctr d = .badDigest := by
  simp [otpCore, Config.digestLength, h]

/-- Everything the core can answer: a string of `d` characters or the bad digest, never a read out of bounds. -/
theorem otpCore_cases (hash : List Byte → List Byte → List Byte) (k : List Byte) (ctr : Word64) (d : Nat) :
    ((hash k (be8 ctr)).length = 20 ∧ ∃ v, otpCore hash k ctr d = .otp (formatOtp v d)) ∨
    ((hash k (be8 ctr)).length ≠ 20 ∧ otpCore hash k ctr d = .badDigest) := by
  by_cases h : (hash k (be8 ctr)).length = 20
  · refine .inl ⟨h, ?_⟩
    rw [otpCore_of_length h, otpOfDigest, digestWindow_eq h]
    exact ⟨_, rfl⟩
  · exact .inr ⟨h, otpCore_badDigest h d⟩

end Sys2Proof.Machine
end

