-- ==== Sys2Proof/Laws/State.lean ====
section
/-! SUPPORT. One lemma per field per update of the state, each true by rfl. -/

namespace Sys2Proof.Machine

section respond

variable (st : Status) (payload : List Byte) (s : State)

@[simp] theorem respond_phase : (respond st payload s).phase = s.phase := rfl
@[simp] theorem respond_mode : (respond st payload s).mode = s.mode := rfl
@[simp] theorem respond_secret : (respond st payload s).secret = s.secret := rfl
@[simp] theorem respond_secretLen : (respond st payload s).secretLen = s.secretLen := rfl
@[simp] theorem respond_digits : (respond st payload s).digits = s.digits := rfl
@[simp] theorem respond_counter : (respond st payload s).counter = s.counter := rfl
@[simp] theorem respond_initSeconds : (respond st payload s).initSeconds = s.initSeconds := rfl
@[simp] theorem respond_timeStep : (respond st payload s).timeStep = s.timeStep := rfl
@[simp] theorem respond_now : (respond st payload s).now = s.now := rfl
@[simp] theorem respond_cmd : (respond st payload s).cmd = s.cmd := rfl
@[simp] theorem respond_rsp : (respond st payload s).rsp = s.rsp ++ [st.code :: payload] := rfl

end respond

section raise

variable (st : Status) (s : State)

@[simp] theorem raise_phase : (raise st s).phase = s.phase := rfl
@[simp] theorem raise_mode : (raise st s).mode = s.mode := rfl
@[simp] theorem raise_secret : (raise st s).secret = s.secret := rfl
@[simp] theorem raise_secretLen : (raise st s).secretLen = s.secretLen := rfl
@[simp] theorem raise_digits : (raise st s).digits = s.digits := rfl
@[simp] theorem raise_counter : (raise st s).counter = s.counter := rfl
@[simp] theorem raise_initSeconds : (raise st s).initSeconds = s.initSeconds := rfl
@[simp] theorem raise_timeStep : (raise st s).timeStep = s.timeStep := rfl
@[simp] theorem raise_now : (raise st s).now = s.now := rfl
@[simp] theorem raise_cmd : (raise st s).cmd = s.cmd := rfl
@[simp] theorem raise_rsp : (raise st s).rsp = s.rsp ++ [[st.code]] := rfl

end raise

section raiseFatal

variable (s : State)

@[simp] theorem raiseFatal_phase : (raiseFatal s).phase = .faulted := rfl
@[simp] theorem raiseFatal_mode : (raiseFatal s).mode = s.mode := rfl
@[simp] theorem raiseFatal_secret : (raiseFatal s).secret = s.secret := rfl
@[simp] theorem raiseFatal_secretLen : (raiseFatal s).secretLen = s.secretLen := rfl
@[simp] theorem raiseFatal_digits : (raiseFatal s).digits = s.digits := rfl
@[simp] theorem raiseFatal_counter : (raiseFatal s).counter = s.counter := rfl
@[simp] theorem raiseFatal_initSeconds : (raiseFatal s).initSeconds = s.initSeconds := rfl
@[simp] theorem raiseFatal_timeStep : (raiseFatal s).timeStep = s.timeStep := rfl
@[simp] theorem raiseFatal_now : (raiseFatal s).now = s.now := rfl
@[simp] theorem raiseFatal_cmd : (raiseFatal s).cmd = s.cmd := rfl
@[simp] theorem raiseFatal_rsp : (raiseFatal s).rsp = s.rsp ++ [[0x80]] := rfl

end raiseFatal

section applyReset

variable (s : State)

@[simp] theorem applyReset_phase : (applyReset s).phase = .unconf := rfl
@[simp] theorem applyReset_mode : (applyReset s).mode = .inc := rfl
@[simp] theorem applyReset_secret : (applyReset s).secret = [] := rfl
@[simp] theorem applyReset_secretLen : (applyReset s).secretLen = 0 := rfl
@[simp] theorem applyReset_digits : (applyReset s).digits = 0 := rfl
@[simp] theorem applyReset_counter : (applyReset s).counter = 0 := rfl
@[simp] theorem applyReset_initSeconds : (applyReset s).initSeconds = 0 := rfl
@[simp] theorem applyReset_timeStep : (applyReset s).timeStep = 0 := rfl
@[simp] theorem applyReset_now : (applyReset s).now = s.now := rfl
@[simp] theorem applyReset_cmd : (applyReset s).cmd = s.cmd := rfl
@[simp] theorem applyReset_rsp : (applyReset s).rsp = s.rsp := rfl

end applyReset

section construct

variable (digits : Byte) (mode : Mode) (counter init step : Word64) (secret : List Byte) (s : State)

@[simp] theorem construct_phase : (construct digits mode counter init step secret s).phase = .ready := rfl
@[simp] theorem construct_mode : (construct digits mode counter init step secret s).mode = mode := rfl
@[simp] theorem construct_secret : (construct digits mode counter init step secret s).secret = secret := rfl
@[simp] theorem construct_secretLen : (construct digits mode counter init step secret s).secretLen = BitVec.ofNat 16 secret.length := rfl
@[simp] theorem construct_digits : (construct digits mode counter init step secret s).digits = digits := rfl
@[simp] theorem construct_counter : (construct digits mode counter init step secret s).counter = counter := rfl
@[simp] theorem construct_initSeconds : (construct digits mode counter init step secret s).initSeconds = init := rfl
@[simp] theorem construct_timeStep : (construct digits mode counter init step secret s).timeStep = step := rfl
@[simp] theorem construct_now : (construct digits mode counter init step secret s).now = s.now := rfl
@[simp] theorem construct_cmd : (construct digits mode counter init step secret s).cmd = s.cmd := rfl
@[simp] theorem construct_rsp : (construct digits mode counter init step secret s).rsp = s.rsp ++ [[0x00]] := rfl

end construct

section offerFrame

variable (f : Frame) (s : State)

@[simp] theorem offerFrame_phase : (offerFrame f s).phase = s.phase := rfl
@[simp] theorem offerFrame_mode : (offerFrame f s).mode = s.mode := rfl
@[simp] theorem offerFrame_secret : (offerFrame f s).secret = s.secret := rfl
@[simp] theorem offerFrame_secretLen : (offerFrame f s).secretLen = s.secretLen := rfl
@[simp] theorem offerFrame_digits : (offerFrame f s).digits = s.digits := rfl
@[simp] theorem offerFrame_counter : (offerFrame f s).counter = s.counter := rfl
@[simp] theorem offerFrame_initSeconds : (offerFrame f s).initSeconds = s.initSeconds := rfl
@[simp] theorem offerFrame_timeStep : (offerFrame f s).timeStep = s.timeStep := rfl
@[simp] theorem offerFrame_now : (offerFrame f s).now = s.now := rfl
@[simp] theorem offerFrame_cmd : (offerFrame f s).cmd = .frame f s.now :: s.cmd := rfl
@[simp] theorem offerFrame_rsp : (offerFrame f s).rsp = s.rsp := rfl

end offerFrame

@[simp] theorem registers_respond (st : Status) (payload : List Byte) (s : State) :
    registers (respond st payload s) = registers s := rfl

@[simp] theorem registers_raise (st : Status) (s : State) : registers (raise st s) = registers s := rfl

@[simp] theorem registers_applyReset (s : State) : registers (applyReset s) = registers State.reset := rfl

@[simp] theorem nextInc_fst (s : State) : (nextInc s).1 = s.counter := rfl

@[simp] theorem nextInc_snd (s : State) : (nextInc s).2 = { s with counter := s.counter + 1 } := rfl

/-- `StateInv` reads the registers alone. -/
theorem StateInv_congr {s t : State} (h : registers s = registers t) : StateInv s ↔ StateInv t := by
  cases s; cases t; simp only [registers, Registers.mk.injEq] at h
  obtain ⟨rfl, rfl, rfl, rfl, rfl, rfl, rfl, rfl⟩ := h; exact Iff.rfl

end Sys2Proof.Machine
end

