-- ==== Sys2Proof/Laws/Commands.lean ====
section
/-! SUPPORT. Everything the shared operations and the meanings can do, said once. -/

namespace Sys2Proof.Machine

theorem digitsValid_iff (digits : Byte) : digitsValid digits = true ↔ 1 ≤ digits.toNat ∧ digits.toNat ≤ 9 :=
  decide_eq_true_iff

/-- Everything a configure command can do: it always answers a next state, with a refusal or performed. -/
theorem configure_cases (digits : Byte) (ownCheck : Option Status) (performed : State → State) (s : State) :
    (∃ st, configure digits ownCheck performed s = .next (raise st s) ∧
      (st = .eState ∨ st = .eFatal ∨ st = .eDigits ∨ ownCheck = some st)) ∨
    (s.phase = .unconf ∧ digitsValid digits = true ∧ ownCheck = none ∧
      configure digits ownCheck performed s = .next (performed s)) := by
  unfold configure
  cases h : s.phase <;> simp only [refuseConfigure]
  · cases hd : digitsValid digits
    · exact .inl ⟨.eDigits, by simp, by simp⟩
    · cases hc : ownCheck with
      | none => exact .inr ⟨trivial, rfl, rfl, by simp⟩
      | some st => exact .inl ⟨st, by simp, by simp⟩
  · exact .inl ⟨.eState, rfl, by simp⟩
  · exact .inl ⟨.eFatal, rfl, by simp⟩

/-- In `UNCONF` with a valid digit count the command's own check decides. -/
theorem configure_admitted {digits : Byte} {own : Option Status} {performed : State → State} {s : State}
    (hp : s.phase = .unconf) (hd : 1 ≤ digits.toNat ∧ digits.toNat ≤ 9) :
    configure digits own performed s =
      match own with
      | none => .next (performed s)
      | some st => .next (raise st s) := by
  simp only [configure, hp, refuseConfigure, (digitsValid_iff digits).2 hd, if_true]
  cases own <;> rfl

/-- In `UNCONF` an invalid digit count is refused. -/
theorem configure_badDigits {digits : Byte} {own : Option Status} {performed : State → State} {s : State}
    (hp : s.phase = .unconf) (hd : ¬(1 ≤ digits.toNat ∧ digits.toNat ≤ 9)) :
    configure digits own performed s = .next (raise .eDigits s) := by
  simp [configure, hp, refuseConfigure, mt (digitsValid_iff digits).1 hd]

/-- Outside `UNCONF` the phase alone decides. -/
theorem configure_refused {digits : Byte} {own : Option Status} {performed : State → State} {s : State} {st : Status}
    (hp : refuseConfigure s.phase = some st) : configure digits own performed s = .next (raise st s) := by
  simp [configure, hp]

/-- After a construction the key is the secret given. -/
theorem key_construct {secret : List Byte} (h : secret.length ≤ 65535) (digits : Byte) (mode : Mode) (counter init step : Word64)
    (s : State) : key (construct digits mode counter init step secret s) = secret := by
  rw [key, construct_secret, construct_secretLen, BitVec.toNat_ofNat, Nat.mod_eq_of_lt (by norm_num; omega), List.take_length]

/-- Everything `next()` can do: the old counter and an advance, the time counter and no write, or no meaning. -/
theorem nextCounter_cases (s : State) :
    (s.mode = .inc ∧ nextCounter s = some (s.counter, { s with counter := s.counter + 1 })) ∨
    (s.mode = .time ∧ s.timeStep ≠ 0 ∧ nextCounter s = some (timeCounter s.now s.initSeconds s.timeStep, s)) ∨
    (s.mode = .time ∧ s.timeStep = 0 ∧ nextCounter s = none) := by
  by_cases hz : s.timeStep = 0#64 <;> cases h : s.mode <;> simp [nextCounter, nextInc, nextTime, h, hz]

/-- A counter that `next()` gives, and the state it leaves. -/
theorem nextCounter_frame {s s1 : State} {ctr : Word64} (h : nextCounter s = some (ctr, s1)) :
    (s.mode = .inc ∧ ctr = s.counter ∧ s1 = { s with counter := s.counter + 1 }) ∨
    (s.mode = .time ∧ s.timeStep ≠ 0 ∧ ctr = timeCounter s.now s.initSeconds s.timeStep ∧ s1 = s) := by
  rcases nextCounter_cases s with ⟨hm, hn⟩ | ⟨hm, hz, hn⟩ | ⟨hm, hz, hn⟩ <;> rw [hn] at h <;> cases h
  · exact .inl ⟨hm, rfl, rfl⟩
  · exact .inr ⟨hm, hz, rfl, rfl⟩

/-- Everything GEN can do with any keyed hash. -/
theorem generateWith_cases (hash : List Byte → List Byte → List Byte) (s : State) :
    (s.phase = .unconf ∧ generateWith hash s = .next (raise .eState s)) ∨
    (s.phase = .faulted ∧ generateWith hash s = .next (raise .eFatal s)) ∨
    (s.phase = .ready ∧ nextCounter s = none ∧ generateWith hash s = .refused .zeroTimeStep) ∨
    (∃ ctr s1 v, s.phase = .ready ∧ nextCounter s = some (ctr, s1) ∧ (hash (key s1) (be8 ctr)).length = 20 ∧
      otpCore hash (key s1) ctr s1.digits.toNat = .otp (formatOtp v s1.digits.toNat) ∧
      generateWith hash s = .next (respond .ok (formatOtp v s1.digits.toNat) s1)) ∨
    (∃ ctr s1, s.phase = .ready ∧ nextCounter s = some (ctr, s1) ∧ (hash (key s1) (be8 ctr)).length ≠ 20 ∧
      generateWith hash s = .next (raiseFatal s1)) := by
  unfold generateWith
  cases h : s.phase <;> simp only [refuseGenerate]
  · exact .inl ⟨trivial, trivial⟩
  · cases hn : nextCounter s with
    | none => exact .inr (.inr (.inl ⟨trivial, rfl, rfl⟩))
    | some p =>
      obtain ⟨ctr, s1⟩ := p
      rcases otpCore_cases hash (key s1) ctr s1.digits.toNat with ⟨hl, v, hv⟩ | ⟨hl, hv⟩
      · exact .inr (.inr (.inr (.inl ⟨ctr, s1, v, trivial, rfl, hl, hv, by simp [hv]⟩)))
      · exact .inr (.inr (.inr (.inr ⟨ctr, s1, trivial, rfl, hl, by simp [hv]⟩)))
  · exact .inr (.inl ⟨trivial, trivial⟩)

@[simp] theorem hmacSha1_length_twenty (k m : List Byte) : (hmacSha1 k m).length = 20 :=
  sha1_length _

theorem checkStep_zero : checkStep 0 = some .eStep := rfl

theorem checkStep_of_ne {step : Word64} (h : step ≠ 0) : checkStep step = none :=
  if_neg h

theorem checkStep_of_none {step : Word64} (h : checkStep step = none) : step ≠ 0 := by
  rintro rfl; cases h

end Sys2Proof.Machine
end

