-- ==== Sys2Proof/Laws/Decode.lean ====
section
/-! SUPPORT. Slices of frames, and what the decoder of each format accepts. -/

namespace Sys2Proof.Machine

@[simp] theorem secretFits_iff (secret : List Byte) : secretFits secret = true ↔ secret.length ≤ 65535 :=
  decide_eq_true_iff

/-- A frame from byte `a` on is its field up to byte `b`, then the rest. -/
theorem drop_eq_slice_append (f : List Byte) {a b : Nat} (h : a ≤ b) : f.drop a = slice f a b ++ f.drop b := by
  obtain ⟨k, rfl⟩ := Nat.exists_eq_add_of_le h
  rw [← List.drop_drop]
  simp [slice]

/-- The last field of a frame runs to its end. -/
theorem slice_to_end (f : List Byte) {a b : Nat} (h : f.length = b) : slice f a b = f.drop a :=
  List.take_of_length_le (by simp; omega)

/-- A frame of two bytes or more begins with its opcode and its byte 1. -/
theorem eq_cons_cons_drop {f : List Byte} {op : Byte} (h : f.head? = some op) (hl : 2 ≤ f.length) :
    f = op :: byteAt f 1 :: f.drop 2 := by
  match f, hl with
  | a :: b :: _, _ => simp at h; simp [byteAt, h]

theorem decodeZ_eq_command {f : Frame} {i j : Instr} : decodeZ f i = .command j ↔ f.length = 1 ∧ i = j := by
  unfold decodeZ; split <;> simp_all

theorem decodeH_eq_command {f : Frame} {i : Instr} : decodeH f = .command i ↔
    f.length = 12 + fieldU16 f 10 ∧ i = .cfgHotp (byteAt f 1) (fieldU64 f 2) (f.drop 12) := by
  unfold decodeH
  by_cases h : f.length = 12 + fieldU16 f 10
  · rw [if_neg (by omega), if_pos h, slice_to_end f h]
    simp [h, eq_comm]
  · simp only [h, if_false, ite_self, false_and]
    simp

theorem decodeT_eq_command {f : Frame} {i : Instr} : decodeT f = .command i ↔
    f.length = 20 + fieldU16 f 18 ∧ i = .cfgTotp (byteAt f 1) (fieldU64 f 2) (fieldU64 f 10) (f.drop 20) := by
  unfold decodeT
  by_cases h : f.length = 20 + fieldU16 f 18
  · rw [if_neg (by omega), if_pos h, slice_to_end f h]
    simp [h, eq_comm]
  · simp only [h, if_false, ite_self, false_and]
    simp

theorem decodeD_eq_command {f : Frame} {i : Instr} : decodeD f = .command i ↔
    f.length = 4 + fieldU16 f 2 ∧ i = .cfgTotpd (byteAt f 1) (f.drop 4) := by
  unfold decodeD
  by_cases h : f.length = 4 + fieldU16 f 2
  · rw [if_neg (by omega), if_pos h, slice_to_end f h]
    simp [h, eq_comm]
  · simp only [h, if_false, ite_self, false_and]
    simp

theorem decode_opcode_hotp (tail : List Byte) : decode (0x01 :: tail) = decodeH (0x01 :: tail) := rfl

theorem decode_opcode_totp (tail : List Byte) : decode (0x02 :: tail) = decodeT (0x02 :: tail) := rfl

theorem decode_opcode_totpd (tail : List Byte) : decode (0x03 :: tail) = decodeD (0x03 :: tail) := rfl

/-- A field in the middle of a sequence. -/
theorem slice_middle {p m : List Byte} {a b : Nat} (t : List Byte) (ha : p.length = a) (hb : m.length = b - a) :
    slice (p ++ m ++ t) a b = m := by
  subst ha; simp [slice, ← hb]

/-- Everything decoding can accept: the opcode says which format, and the format's decoder has accepted the frame. -/
theorem decode_command_cases {f : Frame} {i : Instr} (h : decode f = .command i) :
    (f = [0x10] ∧ i = .gen) ∨ (f = [0x20] ∧ i = .stat) ∨
    (f.head? = some 0x01 ∧ decodeH f = .command i) ∨ (f.head? = some 0x02 ∧ decodeT f = .command i) ∨
    (f.head? = some 0x03 ∧ decodeD f = .command i) := by
  match f with
  | [] => cases h
  | op :: tl =>
    simp only [decode] at h
    split at h
    · simp_all [decodeZ_eq_command]
    split at h
    · simp_all [decodeZ_eq_command]
    split at h
    · simp_all
    split at h
    · simp_all
    split at h
    · simp_all
    · cases h

/-- What decoding accepts is well formed. -/
theorem wf_of_decode {f : Frame} {i : Instr} (h : decode f = .command i) : i.wf = true := by
  rcases decode_command_cases h with ⟨-, rfl⟩ | ⟨-, rfl⟩ | ⟨-, h⟩ | ⟨-, h⟩ | ⟨-, h⟩
  · rfl
  · rfl
  · obtain ⟨hl, rfl⟩ := decodeH_eq_command.1 h
    have := @fieldU16_le f 10
    simp [Instr.wf]; omega
  · obtain ⟨hl, rfl⟩ := decodeT_eq_command.1 h
    have := @fieldU16_le f 18
    simp [Instr.wf]; omega
  · obtain ⟨hl, rfl⟩ := decodeD_eq_command.1 h
    have := @fieldU16_le f 2
    simp [Instr.wf]; omega

end Sys2Proof.Machine
end

