-- ==== Sys2Proof/Laws/PerInstr.lean ====
section
/-! SUPPORT. Statements about every instruction as syntax, one lemma per constructor: the shape of its encoding (R70, R71, R73). -/

namespace Sys2Proof.Laws.EncodedShape

open Sys2Proof Sys2Proof.Machine

/-- The frame of a command begins with its opcode and has the length of its format. -/
def Statement (i : Instr) : Prop :=
  (encode i).head? = some (opcode i) ∧ (encode i).length = frameLength i

theorem cfgHotp (digits : Byte) (c0 : Word64) (secret : List Byte) : Statement (.cfgHotp digits c0 secret) :=
  ⟨rfl, by simp [encode, frameLength]; omega⟩

theorem cfgTotp (digits : Byte) (init step : Word64) (secret : List Byte) : Statement (.cfgTotp digits init step secret) :=
  ⟨rfl, by simp [encode, frameLength]; omega⟩

theorem cfgTotpd (digits : Byte) (secret : List Byte) : Statement (.cfgTotpd digits secret) :=
  ⟨rfl, by simp [encode, frameLength]; omega⟩

theorem gen : Statement .gen := ⟨rfl, rfl⟩

theorem stat : Statement .stat := ⟨rfl, rfl⟩

end Sys2Proof.Laws.EncodedShape
end

