-- ==== Sys2Proof/Laws/Step.lean ====
section
/-! SUPPORT. What a command and a step can do, said once: every configure command is one shape over `configure`, `exec` has four kinds
of next state, `step` takes one event. -/

namespace Sys2Proof.Machine

theorem exec_cfgHotp (digits : Byte) (c0 : Word64) (secret : List Byte) (s : State) :
    exec (.cfgHotp digits c0 secret) s = configure digits none (construct digits .inc c0 0 0 secret) s := rfl

theorem exec_cfgTotp (digits : Byte) (init step : Word64) (secret : List Byte) (s : State) :
    exec (.cfgTotp digits init step secret) s =
      configure digits (checkStep step) (construct digits .time 0 init step secret) s := rfl

theorem exec_cfgTotpd (digits : Byte) (secret : List Byte) (s : State) :
    exec (.cfgTotpd digits secret) s = configure digits none (construct digits .time 0 0 30 secret) s := rfl

theorem exec_gen (s : State) : exec .gen s = generateWith hmacSha1 s := rfl

theorem exec_stat (s : State) : exec .stat s = .next (respond .ok (statPayload s) s) := rfl

/-- Every configure command is `configure` with its digit count, a check that can only say `E_STEP`, and a construction. -/
theorem exec_configure {i : Instr} {digits : Byte} (h : configureDigits i = some digits) :
    ∃ own mode counter init step secret,
      (∀ s, exec i s = configure digits own (construct digits mode counter init step secret) s) ∧
      (own = none ∧ namedStep i ≠ some 0 ∨ own = some .eStep ∧ namedStep i = some 0) ∧
      (own = none → mode = .time → step ≠ 0 ∧ counter = 0) ∧ (mode = .inc → init = 0 ∧ step = 0) ∧
      (i.wf = true → secret.length ≤ 65535) := by
  cases i with
  | gen => cases h
  | stat => cases h
  | cfgHotp d c0 secret =>
    cases h
    exact ⟨none, .inc, c0, 0, 0, secret, fun _ => rfl, .inl ⟨rfl, nofun⟩, nofun, fun _ => ⟨rfl, rfl⟩, fun hw => by simpa [Instr.wf] using hw⟩
  | cfgTotp d init step secret =>
    cases h
    refine ⟨checkStep step, .time, 0, init, step, secret, fun _ => rfl, ?_, fun hc _ => ⟨checkStep_of_none hc, rfl⟩, nofun,
      fun hw => by simpa [Instr.wf] using hw⟩
    by_cases hz : step = 0
    · exact .inr ⟨hz ▸ checkStep_zero, by rw [namedStep, hz]⟩
    · exact .inl ⟨checkStep_of_ne hz, fun hn => hz (Option.some.inj hn)⟩
  | cfgTotpd d secret =>
    cases h
    exact ⟨none, .time, 0, 0, 30, secret, fun _ => rfl, .inl ⟨rfl, nofun⟩, fun _ _ => ⟨by decide, rfl⟩, nofun,
      fun hw => by simpa [Instr.wf] using hw⟩

/-- A command is a configure command, GEN or STAT. -/
theorem instr_cases (i : Instr) : (∃ digits, configureDigits i = some digits) ∨ i = .gen ∨ i = .stat := by
  cases i <;> simp [configureDigits]

/-- Everything a command that answers a next state can have done: refused with no write, STAT's answer, a construction, or a string. -/
theorem exec_next_cases {i : Instr} {s t : State} (h : exec i s = .next t) :
    (∃ st, st ≠ .ok ∧ t = raise st s) ∨
    (i = .stat ∧ t = respond .ok (statPayload s) s) ∨
    (∃ digits mode counter init step secret, configureDigits i = some digits ∧ s.phase = .unconf ∧
      (1 ≤ digits.toNat ∧ digits.toNat ≤ 9) ∧ t = construct digits mode counter init step secret s ∧
      (mode = .time → step ≠ 0 ∧ counter = 0) ∧ (mode = .inc → init = 0 ∧ step = 0) ∧
      (i.wf = true → secret.length ≤ 65535)) ∨
    (∃ ctr s1 v, i = .gen ∧ s.phase = .ready ∧ nextCounter s = some (ctr, s1) ∧
      t = respond .ok (formatOtp v s1.digits.toNat) s1) := by
  rcases instr_cases i with ⟨digits, hd⟩ | rfl | rfl
  · obtain ⟨own, mode, counter, init, step, secret, he, ho, ht, hi, hw⟩ := exec_configure hd
    rw [he] at h
    rcases configure_cases digits own (construct digits mode counter init step secret) s with ⟨st, hc, hst⟩ | ⟨hp, hv, hn, hc⟩
    · rw [hc] at h
      cases h
      refine .inl ⟨st, ?_, rfl⟩
      rintro rfl
      rcases ho with ⟨rfl, -⟩ | ⟨rfl, -⟩ <;> simp at hst
    · rw [hc] at h
      cases h
      exact .inr (.inr (.inl ⟨digits, mode, counter, init, step, secret, hd, hp, (digitsValid_iff digits).1 hv, rfl, ht hn, hi, hw⟩))
  · rcases generateWith_cases hmacSha1 s with ⟨-, hg⟩ | ⟨-, hg⟩ | ⟨-, -, hg⟩ | ⟨ctr, s1, v, hp, hn, -, -, hg⟩ | ⟨_, _, _, _, hl, _⟩
    · exact .inl ⟨.eState, nofun, (Host.Outcome.next.inj (hg.symm.trans h)).symm⟩
    · exact .inl ⟨.eFatal, nofun, (Host.Outcome.next.inj (hg.symm.trans h)).symm⟩
    · cases hg.symm.trans h
    · exact .inr (.inr (.inr ⟨ctr, s1, v, rfl, hp, hn, (Host.Outcome.next.inj (hg.symm.trans h)).symm⟩))
    · exact absurd (hmacSha1_length_twenty _ _) hl
  · cases h
    exact .inr (.inl ⟨rfl, rfl⟩)

/-- A frame that does not decode changes no register. -/
theorem perform_refuse {f : Frame} {e : DecodeError} (h : decode f = .refuse e) (s : State) :
    perform f s = .next (raise (decodeStatus e) s) := by
  simp [perform, performBy, h]

theorem perform_command {f : Frame} {i : Instr} (h : decode f = .command i) (s : State) : perform f s = exec i s := by
  simp [perform, performBy, h]

/-- The step on a frame. -/
theorem step_frame {s : State} {f : Frame} {now : Word64} {rest : List Event} (h : s.cmd = .frame f now :: rest) :
    step s = perform f { s with now := now, cmd := rest } := by
  simp [step, stepBy, h, handleBy, perform]

/-- Everything a step that answers a next state can have taken: no event, a frame, or a reset. -/
theorem step_next_cases {s t : State} (h : step s = .next t) :
    (s.cmd = [] ∧ t = s) ∨
    (∃ f now rest, s.cmd = .frame f now :: rest ∧ perform f { s with now := now, cmd := rest } = .next t) ∨
    (nextIsReset s = true ∧ ∃ e rest, s.cmd = e :: rest ∧ t = applyReset { s with cmd := rest }) := by
  unfold step stepBy at h
  split at h
  · rename_i hc
    cases h
    exact .inl ⟨hc, rfl⟩
  · rename_i e rest hc
    cases e with
    | frame f now => exact .inr (.inl ⟨f, now, rest, hc, h⟩)
    | reset => cases h; exact .inr (.inr ⟨by simp [nextIsReset, hc], _, rest, hc, rfl⟩)
    | resetDuring f => cases h; exact .inr (.inr ⟨by simp [nextIsReset, hc], _, rest, hc, rfl⟩)
    | frameDisciplineBroken => cases h

/-- With HMAC-SHA1 the parametrised commands are the block's own. -/
theorem execWith_hmacSha1 : execWith hmacSha1 = exec := by
  funext i s; cases i <;> rfl

/-- Commands other than GEN do not use the hash. -/
theorem execWith_of_ne_gen (hash : List Byte → List Byte → List Byte) {i : Instr} (h : i ≠ .gen) (s : State) :
    execWith hash i s = exec i s := by
  cases i <;> first | rfl | exact absurd rfl h

/-- Everything a step with any keyed hash that answers a next state can have done. -/
theorem stepWith_next_cases {hash : List Byte → List Byte → List Byte} {s t : State} (h : stepWith hash s = .next t) :
    (∃ f now rest, s.cmd = .frame f now :: rest ∧ decode f = .command .gen ∧
      generateWith hash { s with now := now, cmd := rest } = .next t) ∨
    step s = .next t := by
  unfold stepWith stepBy at h
  unfold step stepBy
  split at h
  · rename_i hc
    exact .inr h
  · rename_i e rest hc
    cases e with
    | frame f now =>
      simp only [handleBy, performBy] at h ⊢
      cases hd : decode f with
      | refuse e => rw [hd] at h; exact .inr h
      | command i =>
        rw [hd] at h
        by_cases hi : i = .gen
        · subst hi; exact .inl ⟨f, now, rest, hc, hd, h⟩
        · exact .inr ((execWith_of_ne_gen hash hi _).symm.trans h)
    | reset => exact .inr h
    | resetDuring f => exact .inr h
    | frameDisciplineBroken => cases h

end Sys2Proof.Machine
end

