-- ==== Sys2Proof/Laws/Run.lean ====
section
/-! SUPPORT. Runs of several steps, and that a command depends on no coming event. -/

namespace Sys2Proof.Machine

/-- The same outcome with another list of coming events. -/
def withCmd (c : List Event) : Host.Outcome State Fault Refusal → Host.Outcome State Fault Refusal
  | .next t => .next { t with cmd := c }
  | .fault r => .fault r
  | .refused r => .refused r

/-- A command neither reads nor writes the coming events. -/
theorem exec_cmd (i : Instr) (s : State) (c : List Event) : exec i { s with cmd := c } = withCmd c (exec i s) := by
  rcases instr_cases i with ⟨digits, hd⟩ | rfl | rfl
  · obtain ⟨own, mode, counter, init, step, secret, he, -⟩ := exec_configure hd
    rw [he, he]
    obtain ⟨phase, _⟩ := s
    cases phase
    · cases own <;> by_cases hv : digitsValid digits = true <;> simp only [configure, refuseConfigure, hv] <;> rfl
    · rfl
    · rfl
  · change generateWith _ _ = withCmd c (generateWith _ _)
    obtain ⟨phase, mode, sec, len, dg, ctr, ini, st, now, cmd, rsp⟩ := s
    cases phase
    · rfl
    · cases mode
      · simp only [generateWith, refuseGenerate, nextCounter, nextInc, key]
        generalize otpCore _ _ _ _ = o
        cases o <;> rfl
      · by_cases hz : st = 0
        · simp only [generateWith, refuseGenerate, nextCounter, nextTime, hz]; rfl
        · simp only [generateWith, refuseGenerate, nextCounter, nextTime, hz, if_false, Option.map, key]
          generalize otpCore _ _ _ _ = o
          cases o <;> rfl
    · rfl
  · rfl

/-- Performing a frame neither reads nor writes the coming events. -/
theorem perform_cmd (f : Frame) (s : State) (c : List Event) : perform f { s with cmd := c } = withCmd c (perform f s) := by
  unfold perform performBy; split
  · rfl
  · exact exec_cmd _ _ _


/-- A run whose first step answers a next state goes on from it. -/
theorem run_next (M : Host.Core) {n : Nat} {s t : M.State} (h : M.step s = .next t) : M.run (n + 1) s = M.run n t := by
  simp [Host.Core.run, h]

/-- A run ends at the first refusal. -/
theorem run_refused (M : Host.Core) {n : Nat} {s : M.State} {r : M.Refusal} (h : M.step s = .refused r) : M.run (n + 1) s = .refused r := by
  simp [Host.Core.run, h]

/-- A run ends at the first fault. -/
theorem run_fault (M : Host.Core) {n : Nat} {s : M.State} {r : M.Fault} (h : M.step s = .fault r) : M.run (n + 1) s = .fault r := by
  simp [Host.Core.run, h]

end Sys2Proof.Machine
end

