-- ==== Sys2Proof/Tests/Slice0.lean ====
section
/-! SUPPORT. Tests. Expected values are the spec's: the worked examples of its rules and the vectors of 95_test_vectors.md, named in
each docstring. The last part shows, for every statement with hypotheses, a state and operands that meet them together. -/

set_option Elab.async false

namespace Sys2Proof.Tests

open Sys2Proof Sys2Proof.Machine

/-! ### Helpers -/

/-- The bytes of a hexadecimal number of `n` bytes, written as the spec prints byte sequences. -/
def hex (n v : Nat) : List Byte := be n v

/-- What a next state shows: its registers and the responses sent. -/
def shown : Host.Outcome State Fault Refusal → Option (Registers × List Frame)
  | .next s => some (registers s, s.rsp)
  | .fault _ => none
  | .refused _ => none

/-- The responses of a next state. -/
def responses (o : Host.Outcome State Fault Refusal) : Option (List Frame) :=
  (shown o).map Prod.snd

/-- `READY/INC/6/c/0/0/S20`, in the notation of 95_test_vectors.md. -/
def hotp (c : Word64) : State :=
  { State.reset with phase := .ready, secret := sampleSecret, secretLen := 20, digits := 6, counter := c }

/-- `READY/TIME/d/0/init/step/secret` at a sample of `NOW`. -/
def totp (d : Byte) (init step now : Word64) (secret : List Byte) : State :=
  { State.reset with
    phase := .ready, mode := .time, secret := secret, secretLen := BitVec.ofNat 16 secret.length, digits := d
    initSeconds := init, timeStep := step, now := now }

/-- `FAULTED/INC/6/8/0/0/S20`, the state after command 2 of program P5. -/
def faulted : State := { hotp 8 with phase := .faulted }

/-- A broken hash unit: the first 19 bytes of the HMAC-SHA1 digest (program P5). -/
def brokenHash (k m : List Byte) : List Byte := (hmacSha1 k m).take 19

/-! ### Well-formedness -/

/-- A secret of more bytes than `slen` can count does not fit. -/
theorem long_secret_does_not_fit (secret : List Byte) (h : secret.length = 65536) : secretFits secret = false := by
  rw [secretFits, h]; rfl

theorem test_wf_refuses_long_hotp_secret : (Instr.cfgHotp 6 0 (List.replicate 65536 0)).wf = false :=
  long_secret_does_not_fit _ List.length_replicate

theorem test_wf_refuses_long_totp_secret : (Instr.cfgTotp 6 0 30 (List.replicate 65536 0)).wf = false :=
  long_secret_does_not_fit _ List.length_replicate

theorem test_wf_refuses_long_totpd_secret : (Instr.cfgTotpd 6 (List.replicate 65536 0)).wf = false :=
  long_secret_does_not_fit _ List.length_replicate

theorem test_wf_accepts_longest_secret : (Instr.cfgTotpd 6 (List.replicate 65535 0)).wf = true := by
  rw [Instr.wf, secretFits, List.length_replicate]; rfl

/-! ### Decoding: frames written out from the formats of R73 -/

/-- R85 rows 1 and 4, and V9 `01 ff ffffffffffffffff 0001 00`. -/
theorem test_decode_hotp :
    decode (hex 12 0x010600000000000000000014 ++ sampleSecret) = .command (.cfgHotp 6 0 sampleSecret) ∧
    decode (hex 13 0x01ffffffffffffffffff000100) = .command (.cfgHotp 255 0xffffffffffffffff [0x00]) := by decide

/-- R85 rows 2 and 3, and V9 with init -2^63 and step 2^64 - 1. -/
theorem test_decode_totp :
    decode (hex 20 0x02080000000000000000000000000000001e0014 ++ sampleSecret) = .command (.cfgTotp 8 0 30 sampleSecret) ∧
    decode (hex 20 0x0206ffffffffffffffff00000000000000010000) = .command (.cfgTotp 6 0xffffffffffffffff 1 []) ∧
    decode (hex 20 0x02068000000000000000ffffffffffffffff0000) =
      .command (.cfgTotp 6 (BitVec.ofInt 64 (-2 ^ 63)) 0xffffffffffffffff []) := by decide

/-- V9 `03 06 0002 aabb`, and R85 row 4. -/
theorem test_decode_totpd :
    decode [0x03, 0x06, 0x00, 0x02, 0xaa, 0xbb] = .command (.cfgTotpd 6 [0xaa, 0xbb]) ∧
    decode ([0x03, 0x06, 0x00, 0x14] ++ sampleSecret) = .command (.cfgTotpd 6 sampleSecret) := by decide

/-- R85 rows 5 and 6. -/
theorem test_decode_gen_stat : decode [0x10] = .command .gen ∧ decode [0x20] = .command .stat := by decide

/-- V9, the frames refused with `E_OPCODE`. -/
theorem test_decode_illegal_opcodes :
    ∀ f ∈ ([[0x00], [0x04], [0x0f], [0x11], [0x21], [0x7f], [0xff, 0x00, 0x01, 0x02]] : List Frame),
      decode f = .refuse .illegalOpcode := by decide

/-- V9, the frames refused with `E_FRAME`. -/
theorem test_decode_bad_frames :
    ∀ f ∈ ([[], [0x10, 0x00], [0x20, 0x20], [0x01], [0x01, 0x06], hex 11 0x0106000000000000000000, hex 12 0x010600000000000000000001,
      hex 13 0x010600000000000000000000aa, hex 12 0x010600000000000000000014 ++ sampleSecret.take 19,
      hex 19 0x02060000000000000000000000000000001e00, [0x03, 0x06], [0x03, 0x06, 0x00, 0x02, 0xaa]] : List Frame),
      decode f = .refuse .badFrame := by decide

/-- The table's rows: an opcode byte with operand bytes of zeros decodes to its command. -/
theorem test_table_words :
    decodeTableWord 8 0x01 = some (.cfgHotp 0 0 []) ∧ decodeTableWord 8 0x02 = some (.cfgTotp 0 0 0 []) ∧
    decodeTableWord 8 0x03 = some (.cfgTotpd 0 []) ∧ decodeTableWord 8 0x10 = some .gen ∧
    decodeTableWord 8 0x20 = some .stat ∧ decodeTableWord 8 0x30 = none ∧
    decodeTableWord 16 0x0903 = some (.cfgTotpd 9 []) := by decide

/-- Offered after reset, each row's command is what the very next step runs. -/
theorem test_table_words_run :
    responses (step (State.reset.withFetchWord 8 0x01)) = some [[0x01]] ∧
    responses (step (State.reset.withFetchWord 8 0x10)) = some [[0x03]] ∧
    responses (step (State.reset.withFetchWord 16 0x0903)) = some [[0x00]] := by decide

/-! ### The hash -/

/-- R154: the padded message of `"abc"`; R153: the second padded blocks of a GEN's inner and outer hash inputs (72 and 84 bytes). -/
theorem test_sha1_padding :
    sha1Pad [0x61, 0x62, 0x63] = hex 4 0x61626380 ++ List.replicate 52 0 ++ hex 8 0x18 ∧
    (sha1Pad (List.replicate 72 0)).drop 64 = List.replicate 8 0 ++ [0x80] ++ List.replicate 47 0 ++ hex 8 0x240 ∧
    (sha1Pad (List.replicate 84 0)).drop 84 = [0x80] ++ List.replicate 35 0 ++ hex 8 0x2a0 ∧
    (sha1Pad []).length = 64 ∧ (sha1Pad (List.replicate 55 0)).length = 64 ∧ (sha1Pad (List.replicate 56 0)).length = 128 := by
  decide +kernel

/-- R156: words of the schedule of `"abc"`; R158: the working variables after rounds 0, 1 and 79. -/
theorem test_sha1_rounds :
    (schedule (sha1Pad [0x61, 0x62, 0x63])).getD 15 0 = 0x18 ∧ (schedule (sha1Pad [0x61, 0x62, 0x63])).getD 16 0 = 0xc2c4c700 ∧
    (schedule (sha1Pad [0x61, 0x62, 0x63])).getD 79 0 = 0x822e0879 ∧
    sha1Rounds 0 ((schedule (sha1Pad [0x61, 0x62, 0x63])).take 1) sha1Initial =
      ⟨0x0116fc33, 0x67452301, 0x7bf36ae2, 0x98badcfe, 0x10325476⟩ ∧
    sha1Rounds 0 ((schedule (sha1Pad [0x61, 0x62, 0x63])).take 2) sha1Initial =
      ⟨0x8990536d, 0x0116fc33, 0x59d148c0, 0x7bf36ae2, 0x98badcfe⟩ ∧
    sha1Rounds 0 (schedule (sha1Pad [0x61, 0x62, 0x63])) sha1Initial =
      ⟨0x42541b35, 0x5738d5e1, 0x21834873, 0x681e6df6, 0xd8fdf6ad⟩ := by decide +kernel

/-- R159: `SHA1("abc")` and `SHA1` of the empty sequence. -/
theorem test_sha1_digests :
    sha1 [0x61, 0x62, 0x63] = hex 20 0xa9993e364706816aba3e25717850c26c9cd0d89d ∧
    sha1 [] = hex 20 0xda39a3ee5e6b4b0d3255bfef95601890afd80709 := by decide +kernel

/-- R160 rows 6 and 7: a key of 64 bytes is used as it is, one of 65 bytes is hashed first. -/
theorem test_hmac_long_keys :
    hmacSha1 (List.replicate 64 0xaa) (be8 0) = hex 20 0x00264b75e153f623fa41e60a9eb3dda5c24f1bd5 ∧
    hmacSha1 (List.replicate 65 0xaa) (be8 0) = hex 20 0x861119f681ce0d31da6e970af1fd8f84695cd224 := by decide +kernel

/-- R150: the inner hash and the result of its worked example. -/
theorem test_hmac_worked_example :
    sha1 (hmacPad 0x36 sampleSecret ++ be8 0) = hex 20 0x0891d9be09bb16c7c8722df368d86350667e499e ∧
    hmacSha1 sampleSecret (be8 0) = hex 20 0xcc93cf18508d94934c64b65d8ba7667fb7cde4b0 := by decide +kernel

/-! ### The core and the Counter Source -/

/-- V3 rows 1, 3, 3', 5 and 7: offset, window, mask, reduction and format on digests made by hand. -/
theorem test_truncation_vectors :
    otpOfDigest (hex 20 0x1f8698690e02ca16618550ef7f19da8e945b555a) 6 = .otp (hex 6 0x383732393231) ∧
    otpOfDigest (List.replicate 20 0xff) 9 = .otp (hex 9 0x313437343833363437) ∧
    otpOfDigest (List.replicate 20 0xff) 1 = .otp [0x37] ∧
    otpOfDigest (hex 20 0x8000002a0f) 6 = .otp (hex 6 0x303030303432) ∧
    otpOfDigest (hex 20 0x12345678ff) 8 = .otp (hex 8 0x3035343139383936) := by decide

/-- V4: counter 1's value at 3, 9 and 11 digits; leading zeros are kept. -/
theorem test_format_vectors :
    formatOtp (reduceOtp 1094287082 3) 3 = [0x30, 0x38, 0x32] ∧
    formatOtp (reduceOtp 1094287082 9) 9 = hex 9 0x303934323837303832 ∧
    formatOtp (reduceOtp 1094287082 11) 11 = hex 11 0x3031303934323837303832 := by decide

/-- V2 (the source's own strings), counters 3 and 9. -/
theorem test_core_source_vectors :
    otpCore hmacSha1 sampleSecret 3 6 = .otp (hex 6 0x393639343239) ∧
    otpCore hmacSha1 sampleSecret 9 6 = .otp (hex 6 0x353230343839) := by decide +kernel

/-- V6 rows 2 and 6, the boundary rows, and V6's other parameters. -/
theorem test_time_counter :
    timeCounter 1111111109 0 30 = 37037036 ∧ timeCounter 20000000000 0 30 = 666666666 ∧ timeCounter 29 0 30 = 0 ∧
    timeCounter 30 0 30 = 1 ∧ timeCounter 100 40 7 = 8 ∧ timeCounter 100 40 0xffffffffffffffff = 0 := by decide

/-- V7: negative and extreme elapsed times. -/
theorem test_time_counter_extremes :
    timeCounter (-1) 0 30 = 0xffffffffffffffff ∧ timeCounter (-30) 0 30 = 0xffffffffffffffff ∧
    timeCounter (-31) 0 30 = 0xfffffffffffffffe ∧ timeCounter 10 100 30 = 0xfffffffffffffffd ∧
    timeCounter 0x8000000000000000 0x7fffffffffffffff 1 = 1 ∧ timeCounter 0x7fffffffffffffff 0x8000000000000000 1 = 0xffffffffffffffff ∧
    timeCounter 0x7fffffffffffffff 0x8000000000000000 2 = 0x7fffffffffffffff ∧
    timeCounter 0x8000000000000000 0x7fffffffffffffff 2 = 0x8000000000000000 := by decide

/-! ### The commands, one step each -/

/-- V10 row 3. -/
theorem test_cfgHotp_constructs : shown (exec (.cfgHotp 9 0xffffffffffffffff sampleSecret) State.reset) =
    some ({ phase := .ready, mode := .inc, secret := sampleSecret, secretLen := 20, digits := 9, counter := 0xffffffffffffffff
            initSeconds := 0, timeStep := 0 }, [[0x00]]) := by decide

/-- V10 rows 4 to 6: digit counts 0, 10 and 255. -/
theorem test_cfgHotp_refuses_digits : ∀ d ∈ ([0, 10, 255] : List Byte),
    shown (exec (.cfgHotp d 0 sampleSecret) State.reset) = some (registers State.reset, [[0x01]]) := by decide

/-- V10 row 8: init -1, step 1, empty secret. -/
theorem test_cfgTotp_constructs : shown (exec (.cfgTotp 6 (-1) 1 []) State.reset) =
    some ({ phase := .ready, mode := .time, secret := [], secretLen := 0, digits := 6, counter := 0
            initSeconds := 0xffffffffffffffff, timeStep := 1 }, [[0x00]]) := by decide

/-- V10 rows 9, 10 and 14: step 0; digits 0 and step 0 together; both in `READY`. -/
theorem test_cfgTotp_order_of_checks :
    shown (exec (.cfgTotp 6 0 0 sampleSecret) State.reset) = some (registers State.reset, [[0x02]]) ∧
    shown (exec (.cfgTotp 0 0 0 sampleSecret) State.reset) = some (registers State.reset, [[0x01]]) ∧
    shown (exec (.cfgTotp 0 0 0 sampleSecret) (hotp 5)) = some (registers (hotp 5), [[0x03]]) := by decide

/-- V10 row 12. -/
theorem test_cfgTotpd_supplies_defaults : shown (exec (.cfgTotpd 6 sampleSecret) State.reset) =
    some (registers (totp 6 0 30 0 sampleSecret), [[0x00]]) := by decide

/-- P5 command 5: in `FAULTED`. -/
theorem test_cfgTotpd_in_faulted :
    shown (exec (.cfgTotpd 6 sampleSecret) faulted) = some (registers faulted, [[0x80]]) := by decide

/-- P4 command 2: the largest counter is used, then the register wraps. -/
theorem test_gen_wraps_the_counter :
    shown (exec .gen (hotp 0xffffffffffffffff)) = some (registers (hotp 0), [0x00 :: hex 6 0x303934343531]) := by decide +kernel

/-- P6 command 2: `NOW` before `INIT_SECONDS`; P2 command 2. -/
theorem test_gen_time_derived :
    shown (exec .gen (totp 6 100 30 10 [])) = some (registers (totp 6 100 30 10 []), [0x00 :: hex 6 0x363432333831]) ∧
    shown (exec .gen (totp 8 0 30 59 sampleSecret)) =
      some (registers (totp 8 0 30 59 sampleSecret), [0x00 :: hex 8 0x3934323837303832]) := by decide +kernel

/-- P5 command 2: a digest of 19 bytes; no string, `FAULTED`, and the counter advance stands. -/
theorem test_broken_hash_faults :
    shown (stepWith brokenHash { hotp 7 with cmd := [.frame [0x10] 0] }) = some (registers faulted, [[0x80]]) := by decide +kernel

/-- V11 rows 1, 5 and 7. -/
theorem test_stat_vectors :
    responses (exec .stat State.reset) = some [List.replicate 27 0] ∧
    responses (exec .stat (totp 6 (-1) 1 0 [])) = some [hex 27 0x0005060000000000000000ffffffffffffffff0000000000000001] ∧
    responses (exec .stat faulted) = some [[0x00, 0x02, 0x06] ++ hex 8 8 ++ hex 8 0 ++ hex 8 0] := by decide

/-! ### Witnesses: the hypotheses of each statement are met -/

theorem witness_DecodeOfEncodeIsTheCommand : (Instr.cfgHotp 6 7 sampleSecret).wf = true := by decide

theorem witness_DecodedFramesAreExactlyEncodings : decode (encode (.cfgTotp 6 1 30 [0xaa])) = .command (.cfgTotp 6 1 30 [0xaa]) := by decide

theorem witness_IllegalOpcodeIsRefused :
    (0x04 : Byte) ∉ ([0x01, 0x02, 0x03, 0x10, 0x20] : List Byte) ∧
    ({ State.reset with cmd := [.frame [0x04] 0] } : State).cmd = .frame ((0x04 : Byte) :: []) 0 :: [] := by decide

/-- One frame for each way of having a wrong length. -/
theorem witness_WrongFrameLengthIsRefused :
    ({ hotp 0 with cmd := [.frame [0x10, 0x00] 0] } : State).cmd = .frame [0x10, 0x00] 0 :: [] ∧
    wrongLength [] ∧ wrongLength [0x10, 0x00] ∧ wrongLength [0x20, 0x20] ∧ wrongLength [0x01, 0x06] ∧
    wrongLength [0x01, 0x06, 0, 0, 0, 0, 0, 0, 0, 0, 0, 0, 0xaa] ∧ wrongLength [0x02] ∧
    wrongLength [0x02, 0x06, 0, 0, 0, 0, 0, 0, 0, 0, 0, 0, 0, 0, 0, 0, 0, 0x1e, 0, 1] ∧
    wrongLength [0x03, 0x06] ∧ wrongLength [0x03, 0x06, 0x00, 0x02, 0xaa] :=
  ⟨rfl, .inl rfl, .inr (.inl ⟨.inl rfl, by decide⟩), .inr (.inl ⟨.inr rfl, by decide⟩),
    .inr (.inr (.inl ⟨rfl, .inl (by decide)⟩)), .inr (.inr (.inl ⟨rfl, .inr (by decide)⟩)),
    .inr (.inr (.inr (.inl ⟨rfl, .inl (by decide)⟩))), .inr (.inr (.inr (.inl ⟨rfl, .inr (by decide)⟩))),
    .inr (.inr (.inr (.inr ⟨rfl, .inl (by decide)⟩))), .inr (.inr (.inr (.inr ⟨rfl, .inr (by decide)⟩)))⟩

theorem witness_StepPerformsTheDecodedCommand :
    ({ hotp 0 with cmd := [.frame [0x10] 5] } : State).cmd = .frame [0x10] 5 :: [] ∧ decode [0x10] = .command .gen ∧
    (hotp 0).cmd = [] := by decide

theorem witness_OfferedTableWordRunsNext : decodeTableWord 8 0x20 = some .stat := by decide

theorem hotp_inv : StateInv (hotp 7) := by
  refine ⟨by decide, by decide, nofun, fun _ => ⟨rfl, rfl⟩⟩

theorem totp_inv : StateInv (totp 8 0 30 59 sampleSecret) := by
  refine ⟨by decide, by decide, fun _ => ⟨by decide, rfl⟩, nofun⟩

theorem faulted_inv : StateInv faulted := by
  refine ⟨by decide, by decide, nofun, fun _ => ⟨rfl, rfl⟩⟩

/-- A status that refuses, at each line of the order, and a frame that none refuses under the invariant. -/
theorem witness_ChecksAreMadeInTheFixedOrder :
    refusalStatus [] .ready = some 0x05 ∧ refusalStatus [0x7f] .faulted = some 0x04 ∧ refusalStatus [0x10] .faulted = some 0x80 ∧
    refusalStatus [0x10] .unconf = some 0x03 ∧ refusalStatus [0x03, 0x00, 0x00, 0x00] .ready = some 0x03 ∧
    refusalStatus [0x03, 0x0a, 0x00, 0x00] .unconf = some 0x01 ∧
    refusalStatus (encode (.cfgTotp 9 0 0 [])) .unconf = some 0x02 ∧
    refusalStatus [0x20] .faulted = none ∧ StateInv faulted ∧ refusalStatus [0x10] (hotp 7).phase = none ∧ StateInv (hotp 7) ∧
    decode [0x10] = .command .gen :=
  ⟨by decide, by decide, by decide, by decide, by decide, by decide, by decide, by decide, faulted_inv, by decide, hotp_inv, by decide⟩

theorem witness_EveryFrameIsAnsweredOnce :
    StateInv { hotp 7 with cmd := [.frame [0x10] 0, .reset] } ∧
    ({ hotp 7 with cmd := [.frame [0x10] 0, .reset] } : State).cmd = .frame [0x10] 0 :: [.reset] :=
  ⟨hotp_inv, rfl⟩

theorem witness_RefusedFramesWriteNoRegister :
    ∃ t, step { faulted with cmd := [.frame [0x10] 0] } = .next t ∧ t.rsp = faulted.rsp ++ [(0x80 : Byte) :: []] ∧ (0x80 : Byte) ≠ 0x00 :=
  ⟨{ faulted with rsp := [[0x80]] }, rfl, rfl, by decide⟩

theorem witness_ResetSetsEveryRegister : ({ faulted with cmd := [.reset] } : State).cmd = .reset :: [] := rfl

theorem witness_ResetDuringCommandAbandonsIt :
    ({ hotp 7 with cmd := [.resetDuring [0x10], .frame [0x20] 0] } : State).cmd = .resetDuring [0x10] :: [.frame [0x20] 0] := rfl

theorem witness_BrokenFrameDisciplineIsRefused :
    ({ hotp 7 with cmd := [.frameDisciplineBroken] } : State).cmd = .frameDisciplineBroken :: [] := rfl

/-- Both ends of the valid digit counts, both sides of them, the longest secret, the least and the zero step. -/
theorem witness_configure_operands :
    State.reset.phase = .unconf ∧ (List.replicate 65535 (0 : Byte)).length ≤ 65535 ∧
    (1 ≤ (1 : Byte).toNat ∧ (1 : Byte).toNat ≤ 9) ∧ (1 ≤ (9 : Byte).toNat ∧ (9 : Byte).toNat ≤ 9) ∧
    ¬(1 ≤ (0 : Byte).toNat ∧ (0 : Byte).toNat ≤ 9) ∧ ¬(1 ≤ (10 : Byte).toNat ∧ (10 : Byte).toNat ≤ 9) ∧
    1 ≤ (1 : Word64).toNat ∧ (0 : Word64).toNat = 0 := by
  refine ⟨rfl, by rw [List.length_replicate], by decide, by decide, by decide, by decide, by decide, by decide⟩

theorem witness_DigitCountIsCheckedAtConstruction :
    State.reset.phase = .unconf ∧ configureDigits (.cfgHotp 0 0 []) = some 0 ∧ configureDigits (.cfgTotp 9 0 1 []) = some 9 ∧
    configureDigits (.cfgTotpd 10 []) = some 10 := by decide

theorem witness_WrongPhaseIsRefused :
    State.reset.phase = .unconf ∧ (hotp 7).phase = .ready ∧ configureDigits (.cfgTotp 0 0 0 []) = some 0 := by decide

theorem witness_FaultedRefusesAllButStat : faulted.phase = .faulted ∧ Instr.gen ≠ Instr.stat := by decide

theorem witness_StatReturnsTheNonSecretState :
    StateInv (totp 8 0 30 59 sampleSecret) ∧ (totp 8 0 30 59 sampleSecret).mode = .time := ⟨totp_inv, rfl⟩

theorem witness_StatusByteLayout : StateInv faulted ∧ StateInv (totp 8 0 30 59 sampleSecret) := ⟨faulted_inv, totp_inv⟩

theorem witness_NextIncReturnsOldAndAdvances : (hotp 0xffffffffffffffff).mode = .inc := rfl

theorem witness_NextTimeIsFloorOfExactQuotient :
    (totp 6 0x7fffffffffffffff 1 0x8000000000000000 []).mode = .time ∧ 1 ≤ (totp 6 0x7fffffffffffffff 1 0x8000000000000000 []).timeStep.toNat := by
  decide

/-- The last sample of bucket -1 and the first of bucket 0. -/
theorem witness_TimeBucketsFixTheCounter :
    1 ≤ (30 : Word64).toNat ∧
    (100 : Word64).toInt + (-1) * (30 : Word64).toNat ≤ (99 : Word64).toInt ∧ (99 : Word64).toInt < (100 : Word64).toInt + (-1 + 1) * (30 : Word64).toNat ∧
    (100 : Word64).toInt + (-1 + 1) * (30 : Word64).toNat ≤ (100 : Word64).toInt ∧
    (100 : Word64).toInt < (100 : Word64).toInt + (-1 + 2) * (30 : Word64).toNat := by decide

theorem witness_NonNegativeElapsedIsExactQuotient :
    1 ≤ (1 : Word64).toNat ∧ (0x8000000000000000 : Word64).toInt ≤ (0x7fffffffffffffff : Word64).toInt := by decide

theorem witness_NegativeElapsedWrapsTheFloor :
    1 ≤ (1 : Word64).toNat ∧ (0x8000000000000000 : Word64).toInt < (0x7fffffffffffffff : Word64).toInt := by decide

theorem witness_ZeroTimeStepHasNoMeaning :
    (totp 6 0 0 0 []).phase = .ready ∧ (totp 6 0 0 0 []).mode = .time ∧ (totp 6 0 0 0 []).timeStep.toNat = 0 := by decide

theorem witness_CounterIsSerialisedBigEndian : (0 : Nat) < 8 ∧ (7 : Nat) < 8 := by decide

theorem witness_WindowIsFourBytesAtTheOffset : (List.replicate 20 (0xff : Byte)).length = 20 := by decide

theorem witness_ReductionIsRemainderByPowerOfTen : (2147483647 : Nat) < 2 ^ 31 ∧ 1 ≤ (1 : Nat) ∧ 10 ≤ (10 : Nat) := by decide

theorem witness_FormatIsTheZeroPaddedNumeral : (0 : Nat) < 10 ^ 0 ∧ (999999999 : Nat) < 10 ^ 9 ∧ (8 : Nat) < 9 := by decide

theorem witness_CoreComposesItsStages :
    (hmacSha1 sampleSecret (be 8 (0 : Word64).toNat)).length = 20 ∧ (brokenHash sampleSecret (be 8 (0 : Word64).toNat)).length ≠ 20 := by
  simp [brokenHash]

theorem witness_GenIncAnswersAndAdvances : (hotp 7).phase = .ready ∧ (hotp 7).mode = .inc := ⟨rfl, rfl⟩

theorem witness_GenTimeAnswersAndWritesNothing :
    (totp 8 0 30 59 sampleSecret).phase = .ready ∧ (totp 8 0 30 59 sampleSecret).mode = .time ∧ 1 ≤ (totp 8 0 30 59 sampleSecret).timeStep.toNat := by
  decide

/-- A hash of twenty zero bytes makes GEN answer six characters. -/
theorem witness_GenStringHasDigitsDecimalCharacters :
    ∃ t chars, generateWith (fun _ _ => List.replicate 20 0) (hotp 7) = .next t ∧ t.rsp = (hotp 7).rsp ++ [0x00 :: chars] :=
  ⟨{ hotp 8 with rsp := [0x00 :: List.replicate 6 0x30] }, List.replicate 6 0x30, rfl, rfl⟩

/-- A HOTP engine at counter 1 and a TOTP engine in bucket 1 with the same secret and digit count. -/
theorem witness_GenStringDependsOnlyOnKeyCounterDigits :
    ∃ t t' chars chars', (hotp 1).phase = .ready ∧ (totp 6 0 30 59 sampleSecret).phase = .ready ∧
      nextCounter (hotp 1) = some (1, hotp 2) ∧ nextCounter (totp 6 0 30 59 sampleSecret) = some (1, totp 6 0 30 59 sampleSecret) ∧
      key (hotp 1) = key (totp 6 0 30 59 sampleSecret) ∧ (hotp 1).digits = (totp 6 0 30 59 sampleSecret).digits ∧
      exec .gen (hotp 1) = .next t ∧ exec .gen (totp 6 0 30 59 sampleSecret) = .next t' ∧
      t.rsp = (hotp 1).rsp ++ [0x00 :: chars] ∧ t'.rsp = (totp 6 0 30 59 sampleSecret).rsp ++ [0x00 :: chars'] := by
  rcases generateWith_cases hmacSha1 (hotp 1) with ⟨h, -⟩ | ⟨h, -⟩ | ⟨-, h, -⟩ | ⟨_, s1, v, -, hn, -, -, hg⟩ | ⟨_, _, _, _, hl, _⟩
  · cases h
  · cases h
  · cases h
  · rcases generateWith_cases hmacSha1 (totp 6 0 30 59 sampleSecret) with ⟨h, -⟩ | ⟨h, -⟩ | ⟨-, h, -⟩ | ⟨_, s2, w, -, hn', -, -, hg'⟩ | ⟨_, _, _, _, hl, _⟩
    · cases h
    · cases h
    · cases h
    · cases hn
      cases hn'
      exact ⟨_, _, _, _, rfl, rfl, rfl, rfl, rfl, rfl, hg, hg', rfl, rfl⟩
    · exact absurd (hmacSha1_length_twenty _ _) hl
  · exact absurd (hmacSha1_length_twenty _ _) hl

theorem witness_FatalDigestFaultsForEveryHash :
    (hotp 7).phase = .ready ∧ nextCounter (hotp 7) = some (7, hotp 8) ∧ (brokenHash (key (hotp 7)) (be 8 (7 : Word64).toNat)).length ≠ 20 :=
  ⟨rfl, rfl, by simp [brokenHash]⟩

theorem witness_HotpRunUsesConsecutiveCounters : (hotp 0xfffffffffffffffe).phase = .ready ∧ (hotp 0xfffffffffffffffe).mode = .inc := ⟨rfl, rfl⟩

theorem witness_ShaScheduleFollowsRecurrence : (15 : Nat) < 16 ∧ 16 ≤ (79 : Nat) ∧ (79 : Nat) < 80 := by decide

theorem witness_HmacKeysWithTheSameKeyBlockAgree : sampleSecret.length + 44 ≤ 64 ∧ 64 < (List.replicate 65 (0xaa : Byte)).length := by decide

theorem witness_StepKeepsInvariant :
    StateInv { hotp 7 with cmd := [.frame [0x20] 0] } ∧ ∃ t, step { hotp 7 with cmd := [.frame [0x20] 0] } = .next t :=
  ⟨hotp_inv, _, rfl⟩

/-- The step in which a broken hash unit faults. -/
theorem witness_StepKeepsInvariantForEveryHash :
    StateInv { hotp 7 with cmd := [.frame [0x10] 0] } ∧ ∃ t, stepWith brokenHash { hotp 7 with cmd := [.frame [0x10] 0] } = .next t := by
  refine ⟨hotp_inv, faulted.1 |> fun _ => ?_⟩
  have hl : (brokenHash (key (hotp 8)) (be8 7)).length ≠ 20 := by simp [brokenHash]
  rcases generateWith_cases brokenHash (hotp 7) with ⟨h, -⟩ | ⟨h, -⟩ | ⟨-, h, -⟩ | ⟨_, s1, v, -, hn, hl', -, hg⟩ | ⟨_, s1, _, _, _, hg⟩
  · cases h
  · cases h
  · cases h
  · cases hn
    exact absurd hl' hl
  · exact ⟨_, hg⟩

theorem witness_FatalFaultIsStickyForEveryHash :
    faulted.phase = .faulted ∧ nextIsReset { faulted with cmd := [.frame [0x10] 0] } = false ∧
    ∃ t, stepWith brokenHash { faulted with cmd := [.frame [0x10] 0] } = .next t := ⟨rfl, rfl, _, rfl⟩

/-- A reset, a construction, and the fatal fault. -/
theorem witness_PhaseChangesExactlyAsListed :
    (nextIsReset { hotp 7 with cmd := [.reset] } = true ∧ ∃ t, step { hotp 7 with cmd := [.reset] } = .next t) ∧
    (nextIsReset { State.reset with cmd := [.frame [0x03, 0x06, 0x00, 0x00] 0] } = false ∧
      ∃ t, step { State.reset with cmd := [.frame [0x03, 0x06, 0x00, 0x00] 0] } = .next t ∧ t.phase ≠ .unconf) ∧
    (∃ t, exec (.cfgTotpd 6 []) State.reset = .next t ∧ t.rsp = State.reset.rsp ++ [[0x00]]) ∧
    (∃ t, generateWith (fun _ _ => []) (hotp 7) = .next t ∧ t.phase ≠ (hotp 7).phase) ∧
    (∃ t, (hotp 7).phase = .ready ∧ generateWith (fun _ _ => []) (hotp 7) = .next t ∧ t.rsp = (hotp 7).rsp ++ [[0x80]]) :=
  ⟨⟨rfl, _, rfl⟩, ⟨rfl, _, rfl, nofun⟩, ⟨_, rfl, rfl⟩, ⟨_, rfl, nofun⟩, ⟨_, rfl, rfl, rfl⟩⟩

theorem witness_OnlyTheCounterMovesUntilReset :
    (hotp 7).phase ≠ .unconf ∧ nextIsReset { hotp 7 with cmd := [.frame [0x20] 0] } = false ∧
    ∃ t, step { hotp 7 with cmd := [.frame [0x20] 0] } = .next t := ⟨nofun, rfl, _, rfl⟩

theorem witness_ConfigureFrame :
    configureDigits (.cfgTotpd 6 []) = some 6 ∧ (∃ t, exec (.cfgTotpd 6 []) State.reset = .next t) ∧
    ∃ t, exec (.cfgTotpd 6 []) (hotp 7) = .next t := ⟨rfl, ⟨_, rfl⟩, ⟨_, rfl⟩⟩

theorem witness_GenFrame : ∃ t, exec .gen faulted = .next t := ⟨_, rfl⟩

theorem witness_SecretInfluencesOnlyGen :
    sameButSecret { hotp 7 with cmd := [.frame [0x20] 0] } { hotp 7 with cmd := [.frame [0x20] 0], secret := [0xaa], secretLen := 1 } ∧
    ∀ now rest, ({ hotp 7 with cmd := [.frame [0x20] 0] } : State).cmd ≠ .frame [0x10] now :: rest :=
  ⟨rfl, fun _ _ h => by simp at h⟩

theorem witness_ClockInfluencesOnlyTimeDerivedGen :
    sameButNow (hotp 7) { hotp 7 with now := 59 } ∧ ¬(Instr.gen = .gen ∧ (hotp 7).phase = .ready ∧ (hotp 7).mode = .time) :=
  ⟨rfl, fun h => nomatch h.2.2⟩

end Sys2Proof.Tests
end

section
/-! PROOFS. The `STATUS` view (R28), and a reset during a command (R37). -/

namespace Sys2Proof.Machine

/-- `STATUS` written with the `PHASE` and `MODE` a state is known to hold. -/
theorem statusByte_of_phase_mode {s : State} {p : Phase} {m : Mode} (hp : s.phase = p) (hm : s.mode = m) :
    statusByte s = (0 : BitVec 5) ++ modeBit m ++ phaseBits p := by
  rw [statusByte, hp, hm]

theorem statusByte_bits_phase (s : State) : (statusByte s).extractLsb' 0 2 = phaseBits s.phase :=
  BitVec.extractLsb'_append_eq_right

theorem statusByte_bits_mode (s : State) : (statusByte s).extractLsb' 2 1 = modeBit s.mode :=
  calc (statusByte s).extractLsb' 2 1
    _ = ((0 : BitVec 5) ++ modeBit s.mode).extractLsb' 0 1 := BitVec.extractLsb'_append_eq_of_le (by decide)
    _ = modeBit s.mode := BitVec.extractLsb'_append_eq_right

theorem statusByte_bits_reserved (s : State) : (statusByte s).extractLsb' 3 5 = 0 :=
  calc (statusByte s).extractLsb' 3 5
    _ = ((0 : BitVec 5) ++ modeBit s.mode).extractLsb' 1 5 := BitVec.extractLsb'_append_eq_of_le (by decide)
    _ = 0 := BitVec.extractLsb'_append_eq_left

/-- In `UNCONF` the invariant leaves `MODE` one value (I2), so that `STATUS` is never 0x04. -/
theorem StateInv.mode_of_unconf {s : State} (hs : StateInv s) (hp : s.phase = .unconf) : s.mode = .inc := by
  rw [StateInv, hp] at hs
  obtain ⟨hm, -⟩ := hs
  exact hm

theorem StateInv.statusByte_mem {s : State} (hs : StateInv s) :
    statusByte s ∈ ([0x00, 0x01, 0x05, 0x02, 0x06] : List Byte) := by
  cases hp : s.phase with
  | unconf => rw [statusByte_of_phase_mode hp (hs.mode_of_unconf hp)]; decide
  | ready => cases hm : s.mode <;> rw [statusByte_of_phase_mode hp hm] <;> decide
  | faulted => cases hm : s.mode <;> rw [statusByte_of_phase_mode hp hm] <;> decide

/-- The step on a reset during a command is the reset itself: the frame of that command is not performed (R37). -/
theorem step_resetDuring {s : State} {f : Frame} {rest : List Event} (h : s.cmd = .resetDuring f :: rest) :
    step s = .next (applyReset { s with cmd := rest }) := by
  simp [step, stepBy, h, handleBy]

end Sys2Proof.Machine

namespace Sys2Proof.Proofs

open Sys2Proof Sys2Proof.Machine

/-- Settles O24: each field of `STATUS` is one operand of the concatenation that makes the byte; the invariant leaves five of the
six pairs of `PHASE` and `MODE`. -/
theorem statusByteLayout : Obligations.StatusByteLayout := by
  intro s
  refine ⟨?phase, ?mode, statusByte_bits_reserved s, StateInv.statusByte_mem, ?stat, ?view⟩
  case phase => exact statusByte_bits_phase s
  case mode => exact statusByte_bits_mode s
  case stat => exact ⟨_, exec_stat s⟩
  case view => exact fun t hp hm => statusByte_of_phase_mode hp hm

/-- Settles O14: the step on a reset during a command is the reset, which sends nothing and leaves the later events. -/
theorem resetDuringCommandAbandonsIt : Obligations.ResetDuringCommandAbandonsIt := by
  intro s f rest h
  exact ⟨_, step_resetDuring h, registers_applyReset _, applyReset_rsp _, applyReset_cmd _⟩

end Sys2Proof.Proofs
end

section
/-! PROOFS. The Counter Source: `NEXT.INC` (R101) and `NEXT.TIME` (R103). -/

namespace Sys2Proof.Machine

/-- Of the three things `next()` can do, `MODE = INC` leaves the advance (R101). -/
theorem nextCounter_of_inc {s : State} (hm : s.mode = .inc) :
    nextCounter s = some (s.counter, { s with counter := s.counter + 1 }) := by
  rcases nextCounter_cases s with ⟨-, hn⟩ | ⟨ht, -, -⟩ | ⟨ht, -, -⟩
  · exact hn
  · cases hm.symm.trans ht
  · cases hm.symm.trans ht

/-- Of the three things `next()` can do, `MODE = TIME` with `TIME_STEP` at least 1 leaves the time counter with no write (R103). -/
theorem nextCounter_of_time {s : State} (hm : s.mode = .time) (hstep : 1 ≤ s.timeStep.toNat) :
    nextCounter s = some (timeCounter s.now s.initSeconds s.timeStep, s) := by
  rcases nextCounter_cases s with ⟨hi, -⟩ | ⟨-, -, hn⟩ | ⟨-, hz, -⟩
  · cases hm.symm.trans hi
  · exact hn
  · simp [hz] at hstep

/-- The time counter as a number: the floor of the exact quotient, modulo 2^64, whatever the sign of the elapsed time (R103, R106). -/
theorem timeCounter_toNat (now init step : Word64) :
    ((timeCounter now init step).toNat : Int) = (now.toInt - init.toInt).fdiv step.toNat % 2 ^ 64 := by
  rw [timeCounter, BitVec.toNat_ofInt, Int.toNat_of_nonneg (Int.emod_nonneg _ (by norm_num))]
  rfl

end Sys2Proof.Machine

namespace Sys2Proof.Proofs

open Sys2Proof Sys2Proof.Machine

/-- Settles O26: the integer `q` is the floor division of the exact difference, whose two bounds are those of the library for a
divisor above 0. -/
theorem nextTimeIsFloorOfExactQuotient : Obligations.NextTimeIsFloorOfExactQuotient := by
  intro s hm hstep
  have hpos : (0 : Int) < s.timeStep.toNat := by exact_mod_cast hstep
  refine ⟨_, (s.now.toInt - s.initSeconds.toInt).fdiv s.timeStep.toNat, nextCounter_of_time hm hstep, ?lower, ?upper,
    timeCounter_toNat _ _ _⟩
  case lower => rw [mul_comm]; exact Int.mul_fdiv_self_le hpos
  case upper => exact Int.lt_fdiv_add_one_mul_self _ hpos

/-- Settles O25: the state left is the old one with `COUNTER` plus 1, and the addition is the word's, modulo 2^64. -/
theorem nextIncReturnsOldAndAdvances : Obligations.NextIncReturnsOldAndAdvances := by
  intro s hm
  exact ⟨_, nextCounter_of_inc hm, BitVec.toNat_add _ _, rfl⟩

end Sys2Proof.Proofs
end

section
/-! PROOFS. The OTP engine: the counter message (R121), the window (R125), the reduction (R126), the string (R127). -/

namespace Sys2Proof.Machine

/-- Byte `j` of a big-endian number is its digit of weight `256^(n-1-j)` (R7). -/
theorem byteAt_be {n j : Nat} (v : Nat) (hj : j < n) : byteAt (be n v) j = BitVec.ofNat 8 (v / 256 ^ (n - 1 - j)) := by
  induction n generalizing j with
  | zero => cases hj
  | succ n ih =>
    cases j with
    | zero => rfl
    | succ j =>
      have hw : n + 1 - 1 - (j + 1) = n - 1 - j := by omega
      rw [hw]
      exact ih (Nat.lt_of_succ_lt_succ hj)

theorem byteAt_be8 (w : Word64) {j : Nat} (hj : j < 8) : byteAt (be8 w) j = w.extractLsb' (8 * (7 - j)) 8 := by
  have hshift : w.toNat / 256 ^ (7 - j) = w.toNat >>> (8 * (7 - j)) := by
    rw [Nat.shiftRight_eq_div_pow, pow_mul]; rfl
  rw [be8, byteAt_be _ hj, hshift]
  rfl

/-- A slice of at least one byte begins with the byte at its lower end. -/
theorem slice_succ {bs : List Byte} {a : Nat} (n : Nat) (h : a < bs.length) :
    slice bs a (a + (n + 1)) = byteAt bs a :: slice bs (a + 1) (a + 1 + n) := by
  have hl : a + (n + 1) - a = n + 1 := by omega
  have hr : a + 1 + n - (a + 1) = n := by omega
  have hb : byteAt bs a = bs[a] := List.getD_eq_getElem _ _ h
  rw [slice, slice, List.drop_eq_getElem_cons h, hl, hr, hb, List.take_succ_cons]

/-- The bytes of a window inside the sequence, each named by its index. -/
theorem slice_four {bs : List Byte} {a : Nat} (h : a + 4 ≤ bs.length) :
    slice bs a (a + 4) = [byteAt bs a, byteAt bs (a + 1), byteAt bs (a + 2), byteAt bs (a + 3)] := by
  rw [slice_succ 3 (by omega), slice_succ 2 (by omega), slice_succ 1 (by omega), slice_succ 0 (by omega)]
  simp [slice]

/-- The window as a number: the sum of R125. -/
theorem fromBe_slice_four {bs : List Byte} {a : Nat} (h : a + 4 ≤ bs.length) :
    fromBe (slice bs a (a + 4)) = (byteAt bs a).toNat * 2 ^ 24 + (byteAt bs (a + 1)).toNat * 2 ^ 16 +
      (byteAt bs (a + 2)).toNat * 2 ^ 8 + (byteAt bs (a + 3)).toNat := by
  simp [slice_four h, fromBe, Nat.add_assoc]

/-- Four bytes fit in the 32 bits of the window, so that its word keeps the number (R125). -/
theorem fromBe_slice_four_lt {bs : List Byte} {a : Nat} (h : a + 4 ≤ bs.length) : fromBe (slice bs a (a + 4)) < 2 ^ 32 := by
  have hlt := fromBe_lt (slice bs a (a + 4))
  have hl : (slice bs a (a + 4)).length = 4 := by simp; omega
  rw [hl] at hlt
  exact hlt.trans_eq (by norm_num)

theorem reduceOtp_lt (truncated digits : Nat) : reduceOtp truncated digits < 10 ^ digits :=
  Nat.mod_lt _ (Nat.pow_pos (by decide))

/-- From ten digits on the power of ten is above every 31-bit value, so that the reduction changes nothing (R126). -/
theorem reduceOtp_of_ten_le {truncated digits : Nat} (ht : truncated < 2 ^ 31) (hd : 10 ≤ digits) :
    reduceOtp truncated digits = truncated := by
  have hpow : 10 ^ 10 ≤ 10 ^ digits := Nat.pow_le_pow_right (by decide) hd
  exact Nat.mod_eq_of_lt (by omega)

theorem byteAt_formatOtp {v d j : Nat} (hj : j < d) : byteAt (formatOtp v d) j = otpChar v d j := by
  simp [byteAt, formatOtp, hj]

/-- The characters before the last are the string of the value without its last digit. -/
theorem formatOtp_succ (v d : Nat) : formatOtp v (d + 1) = formatOtp (v / 10) d ++ [otpChar v (d + 1) d] := by
  have hchar : ∀ i ∈ List.range d, otpChar v (d + 1) i = otpChar (v / 10) d i := by
    intro i hi
    have hw : d + 1 - 1 - i = (d - 1 - i) + 1 := by have := List.mem_range.1 hi; omega
    rw [otpChar, otpChar, hw, Nat.pow_succ', Nat.div_div_eq_div_mul]
  rw [formatOtp, List.range_succ, List.map_append, List.map_congr_left hchar]
  rfl

theorem decimalValue_append_singleton (chars : List Byte) (c : Byte) :
    decimalValue (chars ++ [c]) = 10 * decimalValue chars + (c.toNat - 0x30) := by
  simp [decimalValue]

/-- Read back as a numeral, the string of `d` characters is the value modulo `10^d`: only a value that needs more than `d` digits
loses any (R127). -/
theorem decimalValue_formatOtp (v d : Nat) : decimalValue (formatOtp v d) = v % 10 ^ d := by
  induction d generalizing v with
  | zero => simp [formatOtp, decimalValue, Nat.mod_one]
  | succ d ih =>
    have hlast : (otpChar v (d + 1) d).toNat - 0x30 = v % 10 := by simp [otpChar_toNat]
    calc decimalValue (formatOtp v (d + 1))
      _ = 10 * (v / 10 % 10 ^ d) + v % 10 := by rw [formatOtp_succ, decimalValue_append_singleton, ih, hlast]
      _ = v % 10 ^ (d + 1) := by rw [Nat.pow_succ', Nat.mod_mul, Nat.add_comm]

end Sys2Proof.Machine

namespace Sys2Proof.Proofs

open Sys2Proof Sys2Proof.Machine

/-- Settles O31: a byte of the message is the counter shifted right by whole bytes, modulo 2^8. -/
theorem counterIsSerialisedBigEndian : Obligations.CounterIsSerialisedBigEndian := by
  intro ctr
  exact ⟨be8_length ctr, fromBe_be8 ctr, fun _ hj => byteAt_be8 ctr hj⟩

/-- Settles O32: the offset is at most 15, so that the four bytes lie inside the digest, and their number fits in 32 bits. -/
theorem windowIsFourBytesAtTheOffset : Obligations.WindowIsFourBytesAtTheOffset := by
  intro digest h
  have hin : digestOffset digest + 4 ≤ digest.length := by have := digestOffset_le digest; omega
  refine ⟨digestOffset_eq digest, _, digestWindow_eq h, ?number, truncateWindow_eq _⟩
  rw [BitVec.toNat_ofNat, Nat.mod_eq_of_lt (fromBe_slice_four_lt hin), fromBe_slice_four hin]

/-- Settles O33: the reduction is the remainder, and its modulus is at least `10^10` from ten digits on. -/
theorem reductionIsRemainderByPowerOfTen : Obligations.ReductionIsRemainderByPowerOfTen := by
  intro truncated digits ht _
  exact ⟨rfl, reduceOtp_lt truncated digits, reduceOtp_of_ten_le ht⟩

/-- Settles O34: the value of the string is `v` modulo `10^d`, by induction on the number of characters, and `v` is below `10^d`. -/
theorem formatIsTheZeroPaddedNumeral : Obligations.FormatIsTheZeroPaddedNumeral := by
  intro v d hv
  refine ⟨formatOtp_length v d, fun j hj => ⟨_, Nat.mod_lt _ (by decide), rfl, ?char⟩, ?value⟩
  case char => rw [byteAt_formatOtp hj, otpChar_toNat]
  case value => rw [decimalValue_formatOtp, Nat.mod_eq_of_lt hv]

end Sys2Proof.Proofs
end

section
/-! PROOFS. SHA-1: the padding (R154) and the message schedule (R155, R156). -/

namespace Sys2Proof.Machine

theorem sha1PadZeros_eq (n : Nat) : (sha1PadZeros n : Int) = (55 - (n : Int)) % 64 :=
  Int.toNat_of_nonneg (Int.emod_nonneg _ (by decide))

theorem sha1Pad_length_mod (m : List Byte) : (sha1Pad m).length % 64 = 0 := by
  have hz := sha1PadZeros_eq m.length
  rw [sha1Pad_length]
  omega

/-- Fewer zero bytes than `z` leave the last block incomplete: `z` is below 64 and completes it (R154). -/
theorem padded_length_mod_ne_zero {n z : Nat} (hz : z < sha1PadZeros n) : (n + 1 + z + 8) % 64 ≠ 0 := by
  have hlt := sha1PadZeros_lt n
  have heq := sha1PadZeros_eq n
  omega

@[simp] theorem blockWords_length (block : List Byte) : (blockWords block).length = 16 := by
  simp [blockWords]

theorem getD_blockWords (block : List Byte) {t : Nat} (ht : t < 16) :
    (blockWords block).getD t 0 = BitVec.ofNat 32 (fromBe (slice block (4 * t) (4 * t + 4))) := by
  simp [blockWords, ht]

/-- The last of `n + 1` new words is made from all the words before it. -/
theorem extendSchedule_succ (n : Nat) (ws : List Word32) :
    extendSchedule (n + 1) ws = nextScheduleWord (extendSchedule n ws) :: extendSchedule n ws := by
  induction n generalizing ws with
  | zero => rfl
  | succ n ih => exact ih (nextScheduleWord ws :: ws)

@[simp] theorem extendSchedule_length (n : Nat) (ws : List Word32) : (extendSchedule n ws).length = n + ws.length := by
  induction n with
  | zero => simp [extendSchedule]
  | succ n ih => rw [extendSchedule_succ, List.length_cons, ih]; omega

/-- The earlier words stay as they are, behind the new ones. -/
theorem getD_extendSchedule_add (n k : Nat) (ws : List Word32) : (extendSchedule n ws).getD (n + k) 0 = ws.getD k 0 := by
  induction n with
  | zero => simp [extendSchedule]
  | succ n ih => rw [extendSchedule_succ, Nat.add_right_comm, List.getD_cons_succ, ih]

/-- Each new word is made from the words behind it. -/
theorem getD_extendSchedule_of_lt {n k : Nat} (ws : List Word32) (hk : k < n) :
    (extendSchedule n ws).getD k 0 = nextScheduleWord ((extendSchedule n ws).drop (k + 1)) := by
  induction n generalizing k with
  | zero => cases hk
  | succ n ih =>
    rw [extendSchedule_succ]
    cases k with
    | zero => rfl
    | succ k => exact ih (Nat.lt_of_succ_lt_succ hk)

theorem nextScheduleWord_drop (ws : List Word32) (k : Nat) :
    nextScheduleWord (ws.drop k) =
      rotl (ws.getD (k + 2) 0 ^^^ ws.getD (k + 7) 0 ^^^ ws.getD (k + 13) 0 ^^^ ws.getD (k + 15) 0) 1 := by
  simp [nextScheduleWord]

@[simp] theorem schedule_length (block : List Byte) : (schedule block).length = 80 := by
  simp [schedule]

/-- Word `t` of the schedule is word `79 - t` of the list newest first. -/
theorem getD_schedule (block : List Byte) {t k : Nat} (h : t + k = 79) :
    (schedule block).getD t 0 = (extendSchedule 64 (blockWords block).reverse).getD k 0 := by
  have hk : (extendSchedule 64 (blockWords block).reverse).length - 1 - t = k := by simp; omega
  rw [schedule, List.getD_reverse _ (by simp; omega), hk]

theorem getD_schedule_of_lt (block : List Byte) {t : Nat} (ht : t < 16) :
    (schedule block).getD t 0 = (blockWords block).getD t 0 :=
  calc (schedule block).getD t 0
    _ = (extendSchedule 64 (blockWords block).reverse).getD (64 + (15 - t)) 0 := getD_schedule block (by omega)
    _ = (blockWords block).reverse.getD (15 - t) 0 := getD_extendSchedule_add 64 _ _
    _ = (blockWords block).getD (15 - (15 - t)) 0 := by rw [List.getD_reverse _ (by simp; omega), blockWords_length]
    _ = (blockWords block).getD t 0 := by rw [Nat.sub_sub_self (Nat.le_of_lt_succ ht)]

theorem getD_schedule_of_le (block : List Byte) {t : Nat} (hlo : 16 ≤ t) (hhi : t < 80) :
    (schedule block).getD t 0 =
      rotl ((schedule block).getD (t - 3) 0 ^^^ (schedule block).getD (t - 8) 0 ^^^ (schedule block).getD (t - 14) 0 ^^^
        (schedule block).getD (t - 16) 0) 1 := by
  obtain ⟨k, hk⟩ : ∃ k, t + k = 79 := ⟨79 - t, by omega⟩
  rw [getD_schedule block hk, getD_extendSchedule_of_lt _ (by omega), nextScheduleWord_drop,
    getD_schedule block (k := k + 1 + 2) (by omega), getD_schedule block (k := k + 1 + 7) (by omega),
    getD_schedule block (k := k + 1 + 13) (by omega), getD_schedule block (k := k + 1 + 15) (by omega)]

end Sys2Proof.Machine

namespace Sys2Proof.Proofs

open Sys2Proof Sys2Proof.Machine

/-- Settles O42: `z` is `sha1PadZeros`, and the padded length is 64 times the number of blocks cut. -/
theorem shaPaddingCompletesBlocks : Obligations.ShaPaddingCompletesBlocks := by
  intro m
  have hmod := sha1Pad_length_mod m
  have hlen : (sha1Pad m).length = 64 * ((sha1Pad m).length / 64) := (Nat.mul_div_cancel' (Nat.dvd_of_mod_eq_zero hmod)).symm
  refine ⟨sha1PadZeros m.length, ?padded, sha1PadZeros_eq _, hmod, fun _ => padded_length_mod_ne_zero, sha1Blocks_flatten hlen,
    fun _ => sha1Blocks_length_of_mem hlen⟩
  case padded => simp [sha1Pad]

/-- Settles O43: the model builds the schedule newest first, where each new word is made from the words behind it; reversed, that
is the recurrence. -/
theorem shaScheduleFollowsRecurrence : Obligations.ShaScheduleFollowsRecurrence := by
  intro block
  refine ⟨schedule_length block, fun t ht => ?first, fun _ => getD_schedule_of_le block⟩
  case first => rw [getD_schedule_of_lt block ht, getD_blockWords block ht]

end Sys2Proof.Proofs
end

section
/-! PROOFS. The configure commands: the constructions (R182 to R184) and the digit check (R181). -/

namespace Sys2Proof.Machine

/-- No two statuses have the same byte (R81). -/
theorem Status.code_injective : Function.Injective Status.code := by
  intro a b h
  cases a <;> cases b <;> cases h <;> rfl

/-- The response tells the status raised. -/
theorem raise_injective (s : State) : Function.Injective fun st => raise st s := by
  intro st st' h
  have hrsp : s.rsp ++ [[st.code]] = s.rsp ++ [[st'.code]] := congrArg State.rsp h
  exact Status.code_injective (by simpa using hrsp)

/-- A construction answers `OK`, so that no refusal leaves the same state. -/
theorem eq_ok_of_construct_eq_raise {digits : Byte} {mode : Mode} {counter init step : Word64} {secret : List Byte} {s : State}
    {st : Status} (h : construct digits mode counter init step secret s = raise st s) : st = .ok := by
  have hrsp : s.rsp ++ [[Status.ok.code]] = s.rsp ++ [[st.code]] := congrArg State.rsp h
  exact (Status.code_injective (by simpa using hrsp)).symm

/-- In `UNCONF` an invalid digit count refuses every configure command, whatever its other operands (R181). -/
theorem exec_configure_badDigits {i : Instr} {digits : Byte} {s : State} (hi : configureDigits i = some digits)
    (hp : s.phase = .unconf) (hd : ¬(1 ≤ digits.toNat ∧ digits.toNat ≤ 9)) : exec i s = .next (raise .eDigits s) := by
  obtain ⟨own, mode, counter, init, step, secret, he, -⟩ := exec_configure hi
  rw [he, configure_badDigits hp hd]

/-- In `UNCONF` a valid digit count keeps every configure command from answering `E_DIGITS`: its own check can only say `E_STEP`. -/
theorem exec_configure_ne_badDigits {i : Instr} {digits : Byte} {s : State} (hi : configureDigits i = some digits)
    (hp : s.phase = .unconf) (hd : 1 ≤ digits.toNat ∧ digits.toNat ≤ 9) : exec i s ≠ .next (raise .eDigits s) := by
  obtain ⟨own, mode, counter, init, step, secret, he, ho, -⟩ := exec_configure hi
  rw [he, configure_admitted hp hd]
  intro h
  rcases ho with ⟨rfl, -⟩ | ⟨rfl, -⟩
  · cases eq_ok_of_construct_eq_raise (Host.Outcome.next.inj h)
  · cases raise_injective s (Host.Outcome.next.inj h)

/-- `CFG.HOTP` with its check passed (R182). -/
theorem exec_cfgHotp_admitted {s : State} {digits : Byte} (hp : s.phase = .unconf) (hd : 1 ≤ digits.toNat ∧ digits.toNat ≤ 9)
    (c0 : Word64) (secret : List Byte) :
    exec (.cfgHotp digits c0 secret) s = .next (construct digits .inc c0 0 0 secret s) := by
  rw [exec_cfgHotp, configure_admitted hp hd]

/-- `CFG.TOTP` with both its checks passed (R183). -/
theorem exec_cfgTotp_admitted {s : State} {digits : Byte} {step : Word64} (hp : s.phase = .unconf)
    (hd : 1 ≤ digits.toNat ∧ digits.toNat ≤ 9) (hstep : step ≠ 0) (init : Word64) (secret : List Byte) :
    exec (.cfgTotp digits init step secret) s = .next (construct digits .time 0 init step secret s) := by
  rw [exec_cfgTotp, configure_admitted hp hd, checkStep_of_ne hstep]

/-- `CFG.TOTP` with a valid digit count and the step 0 (R183, R202). -/
theorem exec_cfgTotp_zeroStep {s : State} {digits : Byte} (hp : s.phase = .unconf) (hd : 1 ≤ digits.toNat ∧ digits.toNat ≤ 9)
    (init : Word64) (secret : List Byte) : exec (.cfgTotp digits init 0 secret) s = .next (raise .eStep s) := by
  rw [exec_cfgTotp, configure_admitted hp hd, checkStep_zero]

/-- `CFG.TOTPD` is `CFG.TOTP` with the defaults of R5 (R184). -/
theorem exec_cfgTotpd_eq_cfgTotp (digits : Byte) (secret : List Byte) (s : State) :
    exec (.cfgTotpd digits secret) s = exec (.cfgTotp digits 0 30 secret) s := rfl

/-- The one answer of `CFG.TOTP` that `CFG.TOTPD` never gives is that of the step check: it has none. -/
theorem exec_cfgTotpd_ne_eStep (digits : Byte) (secret : List Byte) (s : State) :
    exec (.cfgTotpd digits secret) s ≠ .next (raise .eStep s) := by
  rw [exec_cfgTotpd]
  intro h
  rcases configure_cases digits none (construct digits .time 0 0 30 secret) s with ⟨st, hc, hst⟩ | ⟨-, -, -, hc⟩
  · have hstep : st = .eStep := raise_injective s (Host.Outcome.next.inj (hc.symm.trans h))
    simp [hstep] at hst
  · cases eq_ok_of_construct_eq_raise (Host.Outcome.next.inj (hc.symm.trans h))

end Sys2Proof.Machine

namespace Sys2Proof.Proofs

open Sys2Proof Sys2Proof.Machine

/-- Settles O16: with the digit check passed the command is the construction of an engine in `MODE = INC`, whose `next()` gives the
`COUNTER` it wrote. -/
theorem cfgHotpConstructsIncrementingEngine : Obligations.CfgHotpConstructsIncrementingEngine := by
  intro s digits c0 secret hp hlen
  refine ⟨fun hd => ⟨_, exec_cfgHotp_admitted hp hd c0 secret, rfl, key_construct hlen _ _ _ _ _ _, ?next⟩,
    exec_configure_badDigits rfl hp⟩
  case next => rw [nextCounter_of_inc (construct_mode ..)]; rfl

/-- Settles O17: the three clauses are the three ways through `configure`, the digit check standing before the command's own. -/
theorem cfgTotpConstructsTimeDerivedEngine : Obligations.CfgTotpConstructsTimeDerivedEngine := by
  intro s digits init step secret hp hlen
  refine ⟨fun hd hstep => ?constructed, fun hd hstep => ?zeroStep, exec_configure_badDigits rfl hp⟩
  case constructed =>
    have hne : step ≠ 0 := by rintro rfl; cases hstep
    exact ⟨_, exec_cfgTotp_admitted hp hd hne init secret, rfl, key_construct hlen _ _ _ _ _ _⟩
  case zeroStep =>
    obtain rfl : step = 0 := BitVec.eq_of_toNat_eq hstep
    exact exec_cfgTotp_zeroStep hp hd init secret

/-- Settles O18: `CFG.TOTPD` is `CFG.TOTP` with the step 30, which is not 0. -/
theorem cfgTotpdSuppliesTheDefaults : Obligations.CfgTotpdSuppliesTheDefaults := by
  intro s digits secret
  refine ⟨exec_cfgTotpd_eq_cfgTotp digits secret s, fun hp hlen hd => ?constructed, exec_configure_badDigits rfl,
    exec_cfgTotpd_ne_eStep digits secret s⟩
  case constructed =>
    rw [exec_cfgTotpd_eq_cfgTotp]
    exact ⟨_, exec_cfgTotp_admitted hp hd (by decide) 0 secret, rfl, key_construct hlen _ _ _ _ _ _⟩

/-- Settles O19: the digit check is the only one that answers `E_DIGITS`, and in `UNCONF` nothing stands before it. -/
theorem digitCountIsCheckedAtConstruction : Obligations.DigitCountIsCheckedAtConstruction := by
  intro s i digits hp hi
  exact ⟨fun h hd => exec_configure_ne_badDigits hi hp hd h, exec_configure_badDigits hi hp⟩

end Sys2Proof.Proofs
end

section
/-! PROOFS. STAT: the 27 bytes of the non-secret state (R185). -/

namespace Sys2Proof.Machine

/-- The bytes of a register read as two's complement are those of its value modulo 2^64 (R25, R185). -/
theorem be8_eq_be_toInt (w : Word64) : be8 w = be 8 (w.toInt % 2 ^ 64).toNat := by
  have hw : (w.toInt % 2 ^ 64).toNat = w.toNat :=
    calc (w.toInt % 2 ^ 64).toNat
      _ = (BitVec.ofInt 64 w.toInt).toNat := (BitVec.toNat_ofInt ..).symm
      _ = w.toNat := by rw [BitVec.ofInt_toInt]
  rw [be8, hw]

@[simp] theorem statPayload_length (s : State) : (statPayload s).length = 26 := by
  simp [statPayload]

/-- Bytes 3 to 10 of STAT's response are `COUNTER`. -/
theorem slice_stat_counter (s : State) : slice (0x00 :: statPayload s) 3 11 = be8 s.counter := by
  have hr : 0x00 :: statPayload s =
      [0x00, statusByte s, s.digits] ++ be8 s.counter ++ (be8 s.initSeconds ++ be8 s.timeStep) := by simp [statPayload]
  rw [hr]
  exact slice_middle _ rfl (be8_length _)

/-- An engine with `MODE = TIME` has `COUNTER` 0 (I3), and in `UNCONF` the mode is INC (I2). -/
theorem StateInv.counter_of_time {s : State} (hs : StateInv s) (hm : s.mode = .time) : s.counter = 0 := by
  have engine : engineInv s → s.counter = 0 := fun ⟨_, _, htime, _⟩ => (htime hm).2
  cases hp : s.phase with
  | unconf => cases (hs.mode_of_unconf hp).symm.trans hm
  | ready => rw [StateInv, hp] at hs; exact engine hs
  | faulted => rw [StateInv, hp] at hs; exact engine hs

end Sys2Proof.Machine

namespace Sys2Proof.Proofs

open Sys2Proof Sys2Proof.Machine

/-- Settles O23: the response is `0x00` before `statPayload`, which names neither `SECRET` nor `SECRET_LEN`; under the invariant
`COUNTER` is 0 in `MODE = TIME`. -/
theorem statReturnsTheNonSecretState : Obligations.StatReturnsTheNonSecretState := by
  intro s
  refine ⟨0x00 :: statPayload s, exec_stat s, ?bytes, ?length, fun _ _ => rfl, fun hs hm => ?counter⟩
  case bytes => rw [← be8_eq_be_toInt]; simp [statPayload, be8]
  case length => simp
  case counter => rw [slice_stat_counter, hs.counter_of_time hm]; rfl

end Sys2Proof.Proofs
end

section
/-! PROOFS. Frames refused by decoding (R207, R208). -/

namespace Sys2Proof.Machine

/-- Byte 0 is none of the opcodes: the last branch of the decoder (R75 line 3). -/
theorem decode_illegalOpcode {op : Byte} {tail : List Byte} (h : op ∉ ([0x01, 0x02, 0x03, 0x10, 0x20] : List Byte)) :
    decode (op :: tail) = .refuse .illegalOpcode := by
  simp only [List.mem_cons, List.not_mem_nil, or_false, not_or] at h
  obtain ⟨hotp, totp, totpd, gen, stat⟩ := h
  simp only [decode, gen, stat, hotp, totp, totpd, if_false]

theorem decodeZ_badFrame {f : Frame} (i : Instr) (h : f.length ≠ 1) : decodeZ f i = .refuse .badFrame :=
  if_neg h

/-- The length check that the formats H, T and D share: a frame shorter than the fixed part, or not as long as `slen` says, is
refused (R75 lines 6 to 8). -/
theorem lengthCheck_badFrame {f : Frame} {fixed slen : Nat} (i : Instr) (h : f.length < fixed ∨ f.length ≠ fixed + slen) :
    (if f.length < fixed then Decoded.refuse .badFrame
      else if f.length = fixed + slen then .command i else .refuse .badFrame) = .refuse .badFrame := by
  rcases h with hshort | hslen
  · rw [if_pos hshort]
  · rw [if_neg hslen, ite_self]

/-- Every wrong length of R208 is refused by the decoder of the format that the opcode names. -/
theorem decode_wrongLength {f : Frame} (h : wrongLength f) : decode f = .refuse .badFrame := by
  rcases h with rfl | ⟨hop | hop, hl⟩ | ⟨hop, hl⟩ | ⟨hop, hl⟩ | ⟨hop, hl⟩
  · rfl
  all_goals obtain ⟨tail, rfl⟩ := List.head?_eq_some_iff.1 hop
  · exact decodeZ_badFrame .gen hl
  · exact decodeZ_badFrame .stat hl
  · exact (decode_opcode_hotp tail).trans (lengthCheck_badFrame _ hl)
  · exact (decode_opcode_totp tail).trans (lengthCheck_badFrame _ hl)
  · exact (decode_opcode_totpd tail).trans (lengthCheck_badFrame _ hl)

/-- The step on a frame that does not decode: the frame is taken, and the status of the decoding error is all that is sent. -/
theorem step_refuse {s : State} {f : Frame} {now : Word64} {rest : List Event} {e : DecodeError}
    (hc : s.cmd = .frame f now :: rest) (hd : decode f = .refuse e) :
    step s = .next (raise (decodeStatus e) { s with now := now, cmd := rest }) := by
  rw [step_frame hc, perform_refuse hd]

end Sys2Proof.Machine

namespace Sys2Proof.Proofs

open Sys2Proof Sys2Proof.Machine

/-- Settles O4: the decoder's last branch, whose error is reported as `E_OPCODE`. -/
theorem illegalOpcodeIsRefused : Obligations.IllegalOpcodeIsRefused :=
  fun _ _ _ _ _ hop hc => step_refuse hc (decode_illegalOpcode hop)

/-- Settles O5: each wrong length fails the check of its format, whose error is reported as `E_FRAME`. -/
theorem wrongFrameLengthIsRefused : Obligations.WrongFrameLengthIsRefused :=
  fun _ _ _ _ hl hc => step_refuse hc (decode_wrongLength hl)

end Sys2Proof.Proofs
end

section
/-! PROOFS. The order of checks (R210): which status refuses a command in a phase, and which commands are performed. -/

namespace Sys2Proof.Machine

/-- Lines 3 to 5 of R210 as rules: command, phase, and the status of the check that refuses the one in the other. Each rule has
passed the checks before its own. The lemmas `commandStatus_of_refusedWith` and `exec_of_refusedWith` tie it to the model. -/
inductive RefusedWith : Instr → Phase → Status → Prop where
  /-- The fatal fault stands: every command but STAT (R204). -/
  | faulted {i : Instr} (hi : i ≠ .stat) : RefusedWith i .faulted .eFatal
  /-- GEN with no engine (R205). -/
  | genUnconf : RefusedWith .gen .unconf .eState
  /-- A configure command with an engine in place, whatever its operands (R205). -/
  | configureReady {i : Instr} {digits : Byte} (hi : configureDigits i = some digits) : RefusedWith i .ready .eState
  /-- An invalid digit count (R201). -/
  | badDigits {i : Instr} {digits : Byte} (hi : configureDigits i = some digits) (hd : ¬(1 ≤ digits.toNat ∧ digits.toNat ≤ 9)) :
      RefusedWith i .unconf .eDigits
  /-- The time step 0, the digit count being valid (R202). -/
  | zeroStep {i : Instr} {digits : Byte} (hi : configureDigits i = some digits) (hd : 1 ≤ digits.toNat ∧ digits.toNat ≤ 9)
      (hstep : namedStep i = some 0) : RefusedWith i .unconf .eStep

/-- Line 6 of R210: the commands that no check refuses in a phase. The lemmas `commandStatus_of_admitted` and
`exec_admitted_rsp` tie it to the model. -/
inductive Admitted : Instr → Phase → Prop where
  | stat (p : Phase) : Admitted .stat p
  | gen : Admitted .gen .ready
  | configure {i : Instr} {digits : Byte} (hi : configureDigits i = some digits) (hd : 1 ≤ digits.toNat ∧ digits.toNat ≤ 9)
      (hstep : namedStep i ≠ some 0) : Admitted i .unconf

theorem ne_gen_of_configureDigits {i : Instr} {digits : Byte} (hi : configureDigits i = some digits) : i ≠ .gen := by
  rintro rfl; cases hi

theorem ne_stat_of_configureDigits {i : Instr} {digits : Byte} (hi : configureDigits i = some digits) : i ≠ .stat := by
  rintro rfl; cases hi

/-- Every command is refused or admitted in every phase. -/
theorem refusedWith_or_admitted (i : Instr) (p : Phase) : (∃ st, RefusedWith i p st) ∨ Admitted i p := by
  rcases instr_cases i with ⟨digits, hi⟩ | rfl | rfl
  · cases p with
    | unconf =>
      by_cases hd : 1 ≤ digits.toNat ∧ digits.toNat ≤ 9
      · by_cases hstep : namedStep i = some 0
        · exact .inl ⟨_, .zeroStep hi hd hstep⟩
        · exact .inr (.configure hi hd hstep)
      · exact .inl ⟨_, .badDigits hi hd⟩
    | ready => exact .inl ⟨_, .configureReady hi⟩
    | faulted => exact .inl ⟨_, .faulted (ne_stat_of_configureDigits hi)⟩
  · cases p with
    | unconf => exact .inl ⟨_, .genUnconf⟩
    | ready => exact .inr .gen
    | faulted => exact .inl ⟨_, .faulted nofun⟩
  · exact .inr (.stat p)

/-- In `UNCONF` the phase refuses no configure command, and the operands decide. -/
theorem commandStatus_configure_unconf {i : Instr} {digits : Byte} (hi : configureDigits i = some digits) :
    commandStatus i .unconf = operandStatus i := by
  simp [commandStatus, ne_gen_of_configureDigits hi, ne_stat_of_configureDigits hi]

theorem operandStatus_badDigits {i : Instr} {digits : Byte} (hi : configureDigits i = some digits)
    (hd : ¬(1 ≤ digits.toNat ∧ digits.toNat ≤ 9)) : operandStatus i = some 0x01 := by
  have hout : digits.toNat < 1 ∨ 9 < digits.toNat := by omega
  simp only [operandStatus, hi, if_pos hout]

theorem operandStatus_validDigits {i : Instr} {digits : Byte} (hi : configureDigits i = some digits)
    (hd : 1 ≤ digits.toNat ∧ digits.toNat ≤ 9) : operandStatus i = if namedStep i = some 0 then some 0x02 else none := by
  have hin : ¬(digits.toNat < 1 ∨ 9 < digits.toNat) := by omega
  simp only [operandStatus, hi, if_neg hin]

/-- The rules give the status that the table of checks gives. -/
theorem commandStatus_of_refusedWith {i : Instr} {p : Phase} {st : Status} (h : RefusedWith i p st) :
    commandStatus i p = some st.code := by
  cases h with
  | faulted hi => simp [commandStatus, hi, Status.code]
  | genUnconf => rfl
  | configureReady hi => simp [commandStatus, ne_gen_of_configureDigits hi, ne_stat_of_configureDigits hi, Status.code]
  | badDigits hi hd => rw [commandStatus_configure_unconf hi, operandStatus_badDigits hi hd]; rfl
  | zeroStep hi hd hstep =>
    rw [commandStatus_configure_unconf hi, operandStatus_validDigits hi hd, if_pos hstep]; rfl

theorem commandStatus_of_admitted {i : Instr} {p : Phase} (h : Admitted i p) : commandStatus i p = none := by
  cases h with
  | stat => rfl
  | gen => rfl
  | configure hi hd hstep => rw [commandStatus_configure_unconf hi, operandStatus_validDigits hi hd, if_neg hstep]

/-- A configure command that the phase refuses. -/
theorem exec_configure_refused {i : Instr} {digits : Byte} {s : State} {st : Status} (hi : configureDigits i = some digits)
    (hp : refuseConfigure s.phase = some st) : exec i s = .next (raise st s) := by
  obtain ⟨own, mode, counter, init, step, secret, he, -⟩ := exec_configure hi
  rw [he, configure_refused hp]

/-- GEN that the phase refuses, with any keyed hash. -/
theorem generateWith_refused {hash : List Byte → List Byte → List Byte} {s : State} {st : Status}
    (hp : refuseGenerate s.phase = some st) : generateWith hash s = .next (raise st s) := by
  simp [generateWith, hp]

/-- A configure command that names the step 0, the checks before having passed. -/
theorem exec_configure_zeroStep {i : Instr} {digits : Byte} {s : State} (hi : configureDigits i = some digits)
    (hp : s.phase = .unconf) (hd : 1 ≤ digits.toNat ∧ digits.toNat ≤ 9) (hstep : namedStep i = some 0) :
    exec i s = .next (raise .eStep s) := by
  obtain ⟨own, mode, counter, init, step, secret, he, ho, -⟩ := exec_configure hi
  rcases ho with ⟨-, hne⟩ | ⟨rfl, -⟩
  · exact absurd hstep hne
  · rw [he, configure_admitted hp hd]

/-- A configure command that no check refuses is the construction. -/
theorem exec_configure_admitted {i : Instr} {digits : Byte} {s : State} (hi : configureDigits i = some digits)
    (hp : s.phase = .unconf) (hd : 1 ≤ digits.toNat ∧ digits.toNat ≤ 9) (hstep : namedStep i ≠ some 0) :
    ∃ mode counter init step secret, exec i s = .next (construct digits mode counter init step secret s) := by
  obtain ⟨own, mode, counter, init, step, secret, he, ho, -⟩ := exec_configure hi
  rcases ho with ⟨rfl, -⟩ | ⟨-, hz⟩
  · exact ⟨mode, counter, init, step, secret, by rw [he, configure_admitted hp hd]⟩
  · exact absurd hz hstep

/-- The model follows the rules: a refused command raises the rule's status and does nothing else. -/
theorem exec_of_refusedWith {i : Instr} {s : State} {p : Phase} {st : Status} (hp : s.phase = p) (h : RefusedWith i p st) :
    exec i s = .next (raise st s) := by
  cases h with
  | faulted hi =>
    rcases instr_cases i with ⟨digits, hd⟩ | rfl | rfl
    · exact exec_configure_refused hd (by rw [hp]; rfl)
    · exact generateWith_refused (by rw [hp]; rfl)
    · exact absurd rfl hi
  | genUnconf => exact generateWith_refused (by rw [hp]; rfl)
  | configureReady hi => exact exec_configure_refused hi (by rw [hp]; rfl)
  | badDigits hi hd => exact exec_configure_badDigits hi hp hd
  | zeroStep hi hd hstep => exact exec_configure_zeroStep hi hp hd hstep

/-- `next()` sends nothing. -/
theorem nextCounter_rsp {s s1 : State} {ctr : Word64} (h : nextCounter s = some (ctr, s1)) : s1.rsp = s.rsp := by
  rcases nextCounter_frame h with ⟨-, -, rfl⟩ | ⟨-, -, -, rfl⟩ <;> rfl

/-- A command that no check refuses, if it answers at all, answers `OK`. -/
theorem exec_admitted_rsp {i : Instr} {s t : State} {p : Phase} (hp : s.phase = p) (h : Admitted i p) (ht : exec i s = .next t) :
    ∃ payload, t.rsp = s.rsp ++ [0x00 :: payload] := by
  cases h with
  | stat => cases ht; exact ⟨_, rfl⟩
  | configure hi hd hstep =>
    obtain ⟨mode, counter, init, step, secret, he⟩ := exec_configure_admitted hi hp hd hstep
    cases he.symm.trans ht
    exact ⟨[], rfl⟩
  | gen =>
    rcases generateWith_cases hmacSha1 s with ⟨hu, -⟩ | ⟨hf, -⟩ | ⟨-, -, hg⟩ | ⟨ctr, s1, v, -, hn, -, -, hg⟩ | ⟨_, _, _, _, hl, _⟩
    · cases hp.symm.trans hu
    · cases hp.symm.trans hf
    · cases hg.symm.trans ht
    · cases hg.symm.trans ht
      exact ⟨_, by rw [respond_rsp, nextCounter_rsp hn]; rfl⟩
    · exact absurd (hmacSha1_length_twenty _ _) hl

/-- An engine's `next()` has a meaning: with `MODE = TIME` the invariant excludes the step 0 (I3, R107). -/
theorem StateInv.nextCounter_ne_none {s : State} (hs : StateInv s) (hp : s.phase = .ready) : nextCounter s ≠ none := by
  rw [StateInv, hp] at hs
  obtain ⟨-, -, htime, -⟩ := hs
  intro hn
  rcases nextCounter_cases s with ⟨-, h⟩ | ⟨-, -, h⟩ | ⟨hm, hz, -⟩
  · cases hn.symm.trans h
  · cases hn.symm.trans h
  · have := htime hm
    simp [hz] at this

/-- GEN of an engine, with any keyed hash: it answers `OK`, or the digest was not 20 bytes and it takes the fatal fault. -/
theorem StateInv.generateWith_ready {s : State} (hs : StateInv s) (hp : s.phase = .ready)
    (hash : List Byte → List Byte → List Byte) :
    ∃ t, generateWith hash s = .next t ∧
      ((∃ payload, t.rsp = s.rsp ++ [0x00 :: payload]) ∨ (t.phase = .faulted ∧ t.rsp = s.rsp ++ [[0x80]])) := by
  rcases generateWith_cases hash s with ⟨hu, -⟩ | ⟨hf, -⟩ | ⟨-, hn, -⟩ | ⟨ctr, s1, v, -, hn, -, -, hg⟩ | ⟨ctr, s1, -, hn, -, hg⟩
  · cases hp.symm.trans hu
  · cases hp.symm.trans hf
  · exact absurd hn (hs.nextCounter_ne_none hp)
  · exact ⟨_, hg, .inl ⟨_, by rw [respond_rsp, nextCounter_rsp hn]; rfl⟩⟩
  · exact ⟨_, hg, .inr ⟨rfl, by rw [raiseFatal_rsp, nextCounter_rsp hn]⟩⟩

/-- Under the invariant a command that no check refuses is performed. -/
theorem StateInv.exec_admitted {i : Instr} {s : State} {p : Phase} (hs : StateInv s) (hp : s.phase = p) (h : Admitted i p) :
    ∃ t payload, exec i s = .next t ∧ t.rsp = s.rsp ++ [0x00 :: payload] := by
  have answers : ∃ t, exec i s = .next t := by
    cases h with
    | stat => exact ⟨_, exec_stat s⟩
    | gen =>
      obtain ⟨t, ht, -⟩ := hs.generateWith_ready hp hmacSha1
      exact ⟨t, ht⟩
    | configure hi hd hstep =>
      obtain ⟨_, _, _, _, _, he⟩ := exec_configure_admitted hi hp hd hstep
      exact ⟨_, he⟩
  obtain ⟨t, ht⟩ := answers
  obtain ⟨payload, hrsp⟩ := exec_admitted_rsp hp h ht
  exact ⟨t, payload, ht, hrsp⟩

/-- A command that raises a status was refused with it: an admitted one answers `OK`. -/
theorem refusedWith_of_exec {i : Instr} {s : State} {st : Status} (hst : st ≠ .ok) (h : exec i s = .next (raise st s)) :
    RefusedWith i s.phase st := by
  rcases refusedWith_or_admitted i s.phase with ⟨st', hr⟩ | ha
  · have heq : raise st' s = raise st s := Host.Outcome.next.inj ((exec_of_refusedWith rfl hr).symm.trans h)
    exact raise_injective s heq ▸ hr
  · obtain ⟨payload, hrsp⟩ := exec_admitted_rsp rfl ha h
    have hcode : st.code = Status.ok.code := by
      rw [raise_rsp] at hrsp
      simp only [List.append_cancel_left_eq, List.cons.injEq] at hrsp
      exact hrsp.1.1
    exact absurd (Status.code_injective hcode) hst

/-- `CFG.TOTP` is the one command that names a step. -/
theorem namedStep_eq_some {i : Instr} {step : Word64} :
    namedStep i = some step ↔ ∃ digits init secret, i = .cfgTotp digits init step secret := by
  cases i <;> simp [namedStep]

theorem refusalStatus_refuse {f : Frame} {e : DecodeError} (h : decode f = .refuse e) (p : Phase) :
    refusalStatus f p = some (decodeStatus e).code := by
  rw [refusalStatus, h]
  cases e <;> rfl

theorem refusalStatus_command {f : Frame} {i : Instr} (h : decode f = .command i) (p : Phase) :
    refusalStatus f p = commandStatus i p := by
  rw [refusalStatus, h]

/-- A frame that a check refuses is answered with the status of that check, and performing it does nothing else. -/
theorem perform_of_refusalStatus {f : Frame} {s : State} {c : Byte} (h : refusalStatus f s.phase = some c) :
    ∃ st, st.code = c ∧ perform f s = .next (raise st s) := by
  cases hd : decode f with
  | refuse e =>
    exact ⟨decodeStatus e, Option.some.inj ((refusalStatus_refuse hd _).symm.trans h), perform_refuse hd s⟩
  | command i =>
    have hc : commandStatus i s.phase = some c := (refusalStatus_command hd _).symm.trans h
    rcases refusedWith_or_admitted i s.phase with ⟨st, hr⟩ | ha
    · refine ⟨st, Option.some.inj ((commandStatus_of_refusedWith hr).symm.trans hc), ?_⟩
      rw [perform_command hd, exec_of_refusedWith rfl hr]
    · cases (commandStatus_of_admitted ha).symm.trans hc

/-- A frame that no check refuses decodes to an admitted command. -/
theorem admitted_of_refusalStatus {f : Frame} {p : Phase} (h : refusalStatus f p = none) :
    ∃ i, decode f = .command i ∧ Admitted i p := by
  cases hd : decode f with
  | refuse e => cases (refusalStatus_refuse hd p).symm.trans h
  | command i =>
    refine ⟨i, rfl, ?_⟩
    have hc : commandStatus i p = none := (refusalStatus_command hd p).symm.trans h
    rcases refusedWith_or_admitted i p with ⟨st, hr⟩ | ha
    · cases (commandStatus_of_refusedWith hr).symm.trans hc
    · exact ha

end Sys2Proof.Machine

namespace Sys2Proof.Proofs

open Sys2Proof Sys2Proof.Machine

/-- Settles O9: a refused command raises its rule's status, and an admitted one answers `OK`; GEN is admitted in `READY` alone, where
the invariant gives `next()` a meaning. -/
theorem checksAreMadeInTheFixedOrder : Obligations.ChecksAreMadeInTheFixedOrder := by
  intro f s
  refine ⟨fun c h => ?refused, fun hs h => ?performed, fun hash hs h hgen => ?anyHash⟩
  case refused =>
    obtain ⟨st, rfl, hf⟩ := perform_of_refusalStatus h
    exact hf
  case performed =>
    obtain ⟨i, hd, ha⟩ := admitted_of_refusalStatus h
    obtain ⟨t, payload, ht, hrsp⟩ := hs.exec_admitted rfl ha
    exact ⟨i, t, payload, hd, perform_command hd s, ht, hrsp⟩
  case anyHash =>
    obtain ⟨i, hd, ha⟩ := admitted_of_refusalStatus h
    obtain rfl : i = .gen := Decoded.command.inj (hd.symm.trans hgen)
    have hp : s.phase = .ready := by
      generalize s.phase = p at ha
      cases ha with
      | gen => rfl
      | configure hi => cases hi
    rw [performBy, hgen]
    exact hs.generateWith_ready hp hash

/-- Settles O20: of the refusals only that of the zero step has this status, and only `CFG.TOTP` names a step. -/
theorem zeroStepIsRefusedByCfgTotpOnly : Obligations.ZeroStepIsRefusedByCfgTotpOnly := by
  intro s i
  constructor
  case mp =>
    intro h
    have hr : RefusedWith i s.phase .eStep := refusedWith_of_exec nofun h
    generalize hp : s.phase = p at hr
    cases hr with
    | zeroStep hi hd hstep =>
      obtain ⟨digits, init, secret, rfl⟩ := namedStep_eq_some.1 hstep
      cases hi
      exact ⟨_, init, secret, rfl, rfl, hd⟩
  case mpr =>
    rintro ⟨digits, init, secret, rfl, hp, hd⟩
    exact exec_cfgTotp_zeroStep hp hd init secret

/-- Settles O21: the phase is checked before any operand. -/
theorem wrongPhaseIsRefused : Obligations.WrongPhaseIsRefused :=
  ⟨fun _ hp => exec_of_refusedWith hp .genUnconf, fun _ _ _ hp hi => exec_of_refusedWith hp (.configureReady hi)⟩

/-- Settles O22: GEN and the configure commands find `FAULTED` at their first check, before `next()` and before any write. -/
theorem faultedRefusesAllButStat : Obligations.FaultedRefusesAllButStat :=
  fun _ _ hp hi => exec_of_refusedWith hp (.faulted hi)

end Sys2Proof.Proofs
end

section
/-! PROOFS. Encoding and decoding (R71, R73, R75): each undoes the other. -/

namespace Sys2Proof.Machine

/-- The 64-bit field behind `a` bytes is the number written there. -/
theorem fieldU64_middle {p : List Byte} {a : Nat} (w : Word64) (t : List Byte) (ha : p.length = a) :
    fieldU64 (p ++ be8 w ++ t) a = w := by
  rw [fieldU64, slice_middle t ha (by simp), fromBe_be8, BitVec.ofNat_toNat, BitVec.setWidth_eq]

/-- The 16-bit field behind `a` bytes is the number written there, when it fits. -/
theorem fieldU16_middle {p : List Byte} {a n : Nat} (t : List Byte) (ha : p.length = a) (hn : n ≤ 65535) :
    fieldU16 (p ++ be 2 n ++ t) a = n := by
  rw [fieldU16, slice_middle t ha (by simp), fromBe_be_of_lt (by omega)]

theorem decode_encode_cfgHotp (digits : Byte) (c0 : Word64) {secret : List Byte} (h : secret.length ≤ 65535) :
    decode (encode (.cfgHotp digits c0 secret)) = .command (.cfgHotp digits c0 secret) := by
  have hc0 := fieldU64_middle (p := [0x01, digits]) (a := 2) c0 (be 2 secret.length ++ secret) rfl
  have hslen := fieldU16_middle (p := [0x01, digits] ++ be8 c0) (a := 10) secret (by simp) h
  have hdrop : ([0x01, digits] ++ be8 c0 ++ be 2 secret.length ++ secret).drop 12 = secret := List.drop_left' (by simp)
  rw [encode, decode_opcode_hotp, decodeH_eq_command]
  simp only [List.cons_append, List.nil_append, List.append_assoc] at hc0 hslen hdrop ⊢
  rw [hc0, hslen, hdrop]
  exact ⟨by simp; omega, rfl⟩

theorem decode_encode_cfgTotp (digits : Byte) (init step : Word64) {secret : List Byte} (h : secret.length ≤ 65535) :
    decode (encode (.cfgTotp digits init step secret)) = .command (.cfgTotp digits init step secret) := by
  have hinit := fieldU64_middle (p := [0x02, digits]) (a := 2) init (be8 step ++ be 2 secret.length ++ secret) rfl
  have hstep := fieldU64_middle (p := [0x02, digits] ++ be8 init) (a := 10) step (be 2 secret.length ++ secret) (by simp)
  have hslen := fieldU16_middle (p := [0x02, digits] ++ be8 init ++ be8 step) (a := 18) secret (by simp) h
  have hdrop : ([0x02, digits] ++ be8 init ++ be8 step ++ be 2 secret.length ++ secret).drop 20 = secret := List.drop_left' (by simp)
  rw [encode, decode_opcode_totp, decodeT_eq_command]
  simp only [List.cons_append, List.nil_append, List.append_assoc] at hinit hstep hslen hdrop ⊢
  rw [hinit, hstep, hslen, hdrop]
  exact ⟨by simp; omega, rfl⟩

theorem decode_encode_cfgTotpd (digits : Byte) {secret : List Byte} (h : secret.length ≤ 65535) :
    decode (encode (.cfgTotpd digits secret)) = .command (.cfgTotpd digits secret) := by
  have hslen := fieldU16_middle (p := [0x03, digits]) (a := 2) secret rfl h
  have hdrop : ([0x03, digits] ++ be 2 secret.length ++ secret).drop 4 = secret := List.drop_left' (by simp)
  rw [encode, decode_opcode_totpd, decodeD_eq_command]
  simp only [List.cons_append, List.nil_append] at hslen hdrop ⊢
  rw [hslen, hdrop]
  exact ⟨by simp; omega, rfl⟩

theorem decode_encode {i : Instr} (h : i.wf = true) : decode (encode i) = .command i := by
  cases i with
  | cfgHotp digits c0 secret => exact decode_encode_cfgHotp digits c0 ((secretFits_iff secret).1 h)
  | cfgTotp digits init step secret => exact decode_encode_cfgTotp digits init step ((secretFits_iff secret).1 h)
  | cfgTotpd digits secret => exact decode_encode_cfgTotpd digits ((secretFits_iff secret).1 h)
  | gen => rfl
  | stat => rfl

theorem decode_of_encode_eq {i : Instr} {f : Frame} (hw : i.wf = true) (hf : encode i = f) : decode f = .command i :=
  hf ▸ decode_encode hw

/-- A 64-bit field written again and the rest of the frame are the frame from that field on. -/
theorem be8_fieldU64_append_drop {f : Frame} {a : Nat} (h : a + 8 ≤ f.length) :
    be8 (fieldU64 f a) ++ f.drop (a + 8) = f.drop a := by
  rw [be8_fieldU64 h, ← drop_eq_slice_append f (Nat.le_add_right a 8)]

/-- The secret and its length, written again, are the frame from the `slen` field on, which names the frame's own length. -/
theorem be_length_append_drop {f : Frame} {a : Nat} (h : f.length = a + 2 + fieldU16 f a) :
    be 2 (f.drop (a + 2)).length ++ f.drop (a + 2) = f.drop a := by
  have hl : (f.drop (a + 2)).length = fieldU16 f a := by simp; omega
  rw [hl, be_fieldU16 (by omega), ← drop_eq_slice_append f (Nat.le_add_right a 2)]

theorem encode_of_decodeH {f : Frame} {i : Instr} (hop : f.head? = some 0x01) (h : decodeH f = .command i) : encode i = f := by
  obtain ⟨hl, rfl⟩ := decodeH_eq_command.1 h
  rw [encode, List.append_assoc, be_length_append_drop (a := 10) hl, be8_fieldU64_append_drop (a := 2) (by omega)]
  exact (eq_cons_cons_drop hop (by omega)).symm

theorem encode_of_decodeT {f : Frame} {i : Instr} (hop : f.head? = some 0x02) (h : decodeT f = .command i) : encode i = f := by
  obtain ⟨hl, rfl⟩ := decodeT_eq_command.1 h
  rw [encode, List.append_assoc, List.append_assoc, be_length_append_drop (a := 18) hl,
    be8_fieldU64_append_drop (a := 10) (by omega), be8_fieldU64_append_drop (a := 2) (by omega)]
  exact (eq_cons_cons_drop hop (by omega)).symm

theorem encode_of_decodeD {f : Frame} {i : Instr} (hop : f.head? = some 0x03) (h : decodeD f = .command i) : encode i = f := by
  obtain ⟨hl, rfl⟩ := decodeD_eq_command.1 h
  rw [encode, be_length_append_drop (a := 2) hl]
  exact (eq_cons_cons_drop hop (by omega)).symm

theorem encode_of_decode {f : Frame} {i : Instr} (h : decode f = .command i) : encode i = f := by
  rcases decode_command_cases h with ⟨rfl, rfl⟩ | ⟨rfl, rfl⟩ | ⟨hop, h⟩ | ⟨hop, h⟩ | ⟨hop, h⟩
  · rfl
  · rfl
  · exact encode_of_decodeH hop h
  · exact encode_of_decodeT hop h
  · exact encode_of_decodeD hop h

end Sys2Proof.Machine

namespace Sys2Proof.Proofs

open Sys2Proof Sys2Proof.Machine

/-- Settles O2: each field of the frame lies between the fields before it, whose lengths are fixed, and the rest, and a secret that
fits has its length in 16 bits. -/
theorem decodeOfEncodeIsTheCommand : Obligations.DecodeOfEncodeIsTheCommand :=
  fun _ hw => decode_encode hw

/-- Settles O3: the length check of each format leaves no byte of the frame outside a field, and each field read and written again
is the bytes it was read from. -/
theorem decodedFramesAreExactlyEncodings : Obligations.DecodedFramesAreExactlyEncodings :=
  fun _ _ hd => ⟨wf_of_decode hd, encode_of_decode hd⟩

/-- Settles O1: each frame of the table is the encoding of the command beside it. -/
theorem sampleFramesDecodeAsSpecified : Obligations.SampleFramesDecodeAsSpecified :=
  ⟨decode_of_encode_eq (i := .cfgHotp 6 0 sampleSecret) (by decide) (by decide),
    decode_of_encode_eq (i := .cfgTotp 8 0 30 sampleSecret) (by decide) (by decide),
    decode_of_encode_eq (i := .cfgTotp 6 (BitVec.ofInt 64 (-1)) 1 []) (by decide) (by decide),
    decode_of_encode_eq (i := .cfgTotpd 6 sampleSecret) (by decide) (by decide),
    decode_of_encode_eq (i := .gen) rfl rfl, decode_of_encode_eq (i := .stat) rfl rfl⟩

end Sys2Proof.Proofs
end

section
/-! PROOFS. The invariant I2, I3 (R34): every command, every frame and every step keeps it, with any keyed hash. -/

namespace Sys2Proof.Machine

/-- With an engine in place the invariant is I3. -/
theorem StateInv_iff_engineInv {s : State} (hp : s.phase ≠ .unconf) : StateInv s ↔ engineInv s := by
  rw [StateInv]
  cases h : s.phase with
  | unconf => exact absurd h hp
  | ready => exact Iff.rfl
  | faulted => exact Iff.rfl

theorem StateInv_applyReset (s : State) : StateInv (applyReset s) :=
  ⟨rfl, rfl, rfl, rfl, rfl, rfl, rfl⟩

/-- The engine that a configure command constructs from checked operands meets I3. -/
theorem StateInv_construct {digits : Byte} {mode : Mode} {counter init step : Word64} {secret : List Byte}
    (hd : 1 ≤ digits.toNat ∧ digits.toNat ≤ 9) (ht : mode = .time → step ≠ 0 ∧ counter = 0)
    (hi : mode = .inc → init = 0 ∧ step = 0) (hw : secret.length ≤ 65535) (s : State) :
    StateInv (construct digits mode counter init step secret s) := by
  have hlen : secret.length = (BitVec.ofNat 16 secret.length).toNat := by
    rw [BitVec.toNat_ofNat, Nat.mod_eq_of_lt (by norm_num; omega)]
  refine ⟨hd, ⟨hlen, hw⟩, fun hm => ⟨?step, (ht hm).2⟩, hi⟩
  have hne : step.toNat ≠ 0 := fun hz => (ht hm).1 (BitVec.eq_of_toNat_eq hz)
  exact Nat.one_le_iff_ne_zero.2 hne

/-- I3 does not depend on which of `READY` and `FAULTED` the phase is, nor on what was sent. -/
theorem engineInv_raiseFatal {s : State} (h : engineInv s) : engineInv (raiseFatal s) := h

theorem engineInv_respond {s : State} (h : engineInv s) (st : Status) (payload : List Byte) :
    engineInv (respond st payload s) := h

/-- `next()` of an engine keeps I3: it writes `COUNTER` alone, and only with `MODE = INC`, where I3 leaves `COUNTER` free. -/
theorem engineInv_nextCounter {s s1 : State} {ctr : Word64} (h : engineInv s) (hn : nextCounter s = some (ctr, s1)) :
    engineInv s1 := by
  obtain ⟨hd, hs, ht, hi⟩ := h
  rcases nextCounter_frame hn with ⟨hm, -, rfl⟩ | ⟨-, -, -, rfl⟩
  · exact ⟨hd, hs, fun htime => (nomatch hm.symm.trans htime), hi⟩
  · exact ⟨hd, hs, ht, hi⟩

/-- `next()` changes neither the phase nor what GEN reads besides the counter. -/
theorem nextCounter_phase_key_digits {s s1 : State} {ctr : Word64} (h : nextCounter s = some (ctr, s1)) :
    s1.phase = s.phase ∧ key s1 = key s ∧ s1.digits = s.digits := by
  rcases nextCounter_frame h with ⟨-, -, rfl⟩ | ⟨-, -, -, rfl⟩ <;> exact ⟨rfl, rfl, rfl⟩

theorem StateInv.of_generateWith {hash : List Byte → List Byte → List Byte} {s t : State} (hs : StateInv s)
    (h : generateWith hash s = .next t) : StateInv t := by
  rcases generateWith_cases hash s with ⟨-, hg⟩ | ⟨-, hg⟩ | ⟨-, -, hg⟩ | ⟨ctr, s1, v, hp, hn, -, -, hg⟩ | ⟨ctr, s1, hp, hn, -, hg⟩
    <;> cases hg.symm.trans h
  · exact hs
  · exact hs
  all_goals
    have hengine : engineInv s := (StateInv_iff_engineInv (by simp [hp])).1 hs
    obtain ⟨hp1, -, -⟩ := nextCounter_phase_key_digits hn
  · exact (StateInv_iff_engineInv (by simp [hp1, hp])).2 (engineInv_respond (engineInv_nextCounter hengine hn) _ _)
  · exact (StateInv_iff_engineInv (by simp)).2 (engineInv_raiseFatal (engineInv_nextCounter hengine hn))

/-- A command that a frame can express keeps the invariant. -/
theorem StateInv.of_exec {i : Instr} {s t : State} (hs : StateInv s) (hw : i.wf = true) (h : exec i s = .next t) : StateInv t := by
  rcases exec_next_cases h with ⟨st, -, rfl⟩ | ⟨-, rfl⟩ | ⟨_, _, _, _, _, _, -, -, hd, rfl, ht, hi, hsec⟩ | ⟨_, _, _, rfl, -, -, -⟩
  · exact hs
  · exact hs
  · exact StateInv_construct hd ht hi (hsec hw) s
  · exact hs.of_generateWith h

theorem StateInv.of_perform {f : Frame} {s t : State} (hs : StateInv s) (h : perform f s = .next t) : StateInv t := by
  cases hd : decode f with
  | refuse e => cases (perform_refuse hd s).symm.trans h; exact hs
  | command i => exact hs.of_exec (wf_of_decode hd) ((perform_command hd s).symm.trans h)

theorem StateInv.of_step {s t : State} (hs : StateInv s) (h : step s = .next t) : StateInv t := by
  rcases step_next_cases h with ⟨-, rfl⟩ | ⟨f, now, rest, -, hf⟩ | ⟨-, e, rest, -, rfl⟩
  · exact hs
  · exact StateInv.of_perform (s := { s with now := now, cmd := rest }) hs hf
  · exact StateInv_applyReset _

theorem StateInv.of_stepWith {hash : List Byte → List Byte → List Byte} {s t : State} (hs : StateInv s)
    (h : stepWith hash s = .next t) : StateInv t := by
  rcases stepWith_next_cases h with ⟨f, now, rest, -, -, hg⟩ | hstep
  · exact StateInv.of_generateWith (s := { s with now := now, cmd := rest }) hs hg
  · exact hs.of_step hstep

end Sys2Proof.Machine

namespace Sys2Proof.Proofs

open Sys2Proof Sys2Proof.Machine

/-- Settles O46: the registers are written by a construction from checked operands, by `next()`, or by a reset; each keeps the
invariant, and a frame's command is well formed. -/
theorem stepKeepsInvariant : Obligations.StepKeepsInvariant :=
  fun _ _ hs h => hs.of_step h

/-- Settles O47: a step with another hash differs in GEN alone, whose fatal fault keeps the engine's registers. -/
theorem stepKeepsInvariantForEveryHash : Obligations.StepKeepsInvariantForEveryHash :=
  fun _ _ _ hs h => hs.of_stepWith h

/-- Settles O45: in `UNCONF` every register of `State.reset` has its reset value, as after a reset. -/
theorem invariantHoldsAtReset : Obligations.InvariantHoldsAtReset :=
  StateInv_applyReset State.reset

end Sys2Proof.Proofs
end

section
/-! PROOFS. The step and runs of steps: what a step does with each event (R9, R36, R236), a run over a list of frames (R58, R241), one
response for each frame (R70, R200), and no read outside a buffer (R53). -/

namespace Sys2Proof.Machine

/-- With no event the block is idle (R9, R211). -/
theorem stepBy_idle {execute : Executor} {s : State} (h : s.cmd = []) : stepBy execute s = .next s := by
  simp [stepBy, h]

/-- With events the block takes the oldest. -/
theorem stepBy_event {execute : Executor} {s : State} {e : Event} {rest : List Event} (h : s.cmd = e :: rest) :
    stepBy execute s = handleBy execute e { s with cmd := rest } := by
  simp [stepBy, h]

/-- The step on a reset between commands (R36). -/
theorem step_reset {s : State} {rest : List Event} (h : s.cmd = .reset :: rest) :
    step s = .next (applyReset { s with cmd := rest }) :=
  stepBy_event h

/-- A table word is read as a command exactly by decoding its frame. -/
theorem decode_of_decodeTableWord {nbits w : Nat} {i : Instr} (h : decodeTableWord nbits w = some i) :
    decode (frameOfTableWord nbits w) = .command i := by
  rw [decodeTableWord] at h
  cases hd : decode (frameOfTableWord nbits w) with
  | refuse e => rw [hd] at h; cases h
  | command j => rw [hd] at h; cases h; rfl

/-- Performing a frame leaves the coming events. -/
theorem cmd_of_perform {f : Frame} {s t : State} (h : perform f s = .next t) : t.cmd = s.cmd := by
  have hsame : withCmd s.cmd (perform f s) = perform f s := (perform_cmd f s s.cmd).symm
  rw [h] at hsame
  have ht : { t with cmd := s.cmd } = t := Host.Outcome.next.inj hsame
  rw [← ht]

theorem with_cmd_of_eq {t : State} {c : List Event} (h : t.cmd = c) : { t with cmd := c } = t := by
  rw [← h]

/-- The step on the first of two lists of events put together performs its frame with all of the rest still to come. -/
theorem step_frame_append (f : Frame) (now : Word64) (later rest : List Event) (s : State) :
    step { s with cmd := .frame f now :: later ++ rest } =
      withCmd (later ++ rest) (perform f { s with now := now, cmd := rest }) :=
  (step_frame rfl).trans (perform_cmd f { s with now := now, cmd := rest } (later ++ rest))

/-- As many steps as there are frames fold `perform` over them; the events behind them stay (R58, R241). -/
theorem run_frameEvents (fs : List (Frame × Word64)) (s : State) (rest : List Event) :
    Host.Core.run core fs.length { s with cmd := frameEvents fs ++ rest } = performAll fs { s with cmd := rest } := by
  induction fs generalizing s with
  | nil => rfl
  | cons p fs ih =>
    have hstep : core.step { s with cmd := frameEvents (p :: fs) ++ rest } =
        withCmd (frameEvents fs ++ rest) (perform p.1 { s with now := p.2, cmd := rest }) :=
      step_frame_append p.1 p.2 (frameEvents fs) rest s
    rw [performAll, List.length_cons]
    cases hp : perform p.1 { s with now := p.2, cmd := rest } with
    | next t =>
      rw [hp] at hstep
      rw [run_next core hstep, ih, with_cmd_of_eq (cmd_of_perform hp)]
    | fault r => rw [hp] at hstep; exact run_fault core hstep
    | refused r => rw [hp] at hstep; exact run_refused core hstep

/-- A frame that a step answers was refused, and its status is all that was written, or it was performed and answered `OK`. -/
theorem perform_answer {f : Frame} {s t : State} (h : perform f s = .next t) :
    (∃ st, t = raise st s) ∨ ∃ payload, t.rsp = s.rsp ++ [Status.ok.code :: payload] := by
  cases hr : refusalStatus f s.phase with
  | some c =>
    obtain ⟨st, -, hf⟩ := perform_of_refusalStatus hr
    exact .inl ⟨st, Host.Outcome.next.inj (h.symm.trans hf)⟩
  | none =>
    obtain ⟨i, hd, ha⟩ := admitted_of_refusalStatus hr
    exact .inr (exec_admitted_rsp rfl ha ((perform_command hd s).symm.trans h))

/-- Under the invariant every frame is answered. -/
theorem StateInv.perform_answers {s : State} (hs : StateInv s) (f : Frame) : ∃ t, perform f s = .next t := by
  cases hr : refusalStatus f s.phase with
  | some c =>
    obtain ⟨st, -, hf⟩ := perform_of_refusalStatus hr
    exact ⟨_, hf⟩
  | none =>
    obtain ⟨i, hd, ha⟩ := admitted_of_refusalStatus hr
    obtain ⟨t, payload, ht, -⟩ := hs.exec_admitted rfl ha
    exact ⟨t, (perform_command hd s).trans ht⟩

/-- GEN with any keyed hash takes no fault: the core never reads outside the digest (R53). -/
theorem generateWith_ne_fault (hash : List Byte → List Byte → List Byte) (s : State) (r : Fault) :
    generateWith hash s ≠ .fault r := by
  intro h
  rcases generateWith_cases hash s with ⟨-, hg⟩ | ⟨-, hg⟩ | ⟨-, -, hg⟩ | ⟨_, _, _, -, -, -, -, hg⟩ | ⟨_, _, -, -, -, hg⟩ <;>
    cases hg.symm.trans h

theorem exec_ne_fault (i : Instr) (s : State) (r : Fault) : exec i s ≠ .fault r := by
  rcases instr_cases i with ⟨digits, hd⟩ | rfl | rfl
  · obtain ⟨own, mode, counter, init, step, secret, he, -⟩ := exec_configure hd
    rw [he]
    intro h
    rcases configure_cases digits own (construct digits mode counter init step secret) s with ⟨st, hc, -⟩ | ⟨-, -, -, hc⟩ <;>
      cases hc.symm.trans h
  · exact generateWith_ne_fault hmacSha1 s r
  · exact nofun

theorem perform_ne_fault (f : Frame) (s : State) (r : Fault) : perform f s ≠ .fault r := by
  cases hd : decode f with
  | refuse e => rw [perform_refuse hd]; exact nofun
  | command i => rw [perform_command hd]; exact exec_ne_fault i s r

theorem step_ne_fault (s : State) (r : Fault) : step s ≠ .fault r := by
  rw [step]
  cases hc : s.cmd with
  | nil => rw [stepBy_idle hc]; exact nofun
  | cons e rest =>
    rw [stepBy_event hc]
    cases e with
    | frame f now => exact perform_ne_fault f _ r
    | reset => exact nofun
    | resetDuring f => exact nofun
    | frameDisciplineBroken => exact nofun

end Sys2Proof.Machine

namespace Sys2Proof.Proofs

open Sys2Proof Sys2Proof.Machine

/-- Settles O8: by induction on the frames; performing one neither reads nor writes the events behind it. -/
theorem runOfFramesFoldsPerform : Obligations.RunOfFramesFoldsPerform :=
  run_frameEvents

/-- Settles O10: a refused frame raises its status, and under the invariant every other one is performed and answered `OK`. -/
theorem everyFrameIsAnsweredOnce : Obligations.EveryFrameIsAnsweredOnce := by
  intro s f now rest hs hc
  have hs' : StateInv { s with now := now, cmd := rest } := hs
  obtain ⟨t, ht⟩ := hs'.perform_answers f
  have hstep : step s = .next t := (step_frame hc).trans ht
  have hcmd : t.cmd = rest := cmd_of_perform ht
  rcases perform_answer ht with ⟨st, rfl⟩ | ⟨payload, hrsp⟩
  · exact ⟨_, st, [], hstep, hcmd, rfl, fun _ => rfl⟩
  · exact ⟨t, .ok, payload, hstep, hcmd, hrsp, fun hne => absurd rfl hne⟩

/-- Settles O11: a frame that is performed is answered `OK`, and one that is refused has only its status sent. -/
theorem refusedFramesWriteNoRegister : Obligations.RefusedFramesWriteNoRegister := by
  intro s t f now rest c payload hc hstep hrsp hne
  have hf : perform f { s with now := now, cmd := rest } = .next t := (step_frame hc).symm.trans hstep
  rcases perform_answer hf with ⟨st, rfl⟩ | ⟨payload', hok⟩
  · have hfr : c :: payload = [st.code] := by simpa using hrsp.symm
    exact ⟨registers_raise _ _, (List.cons.inj hfr).2⟩
  · have hfr : c :: payload = 0x00 :: payload' := by simpa [Status.code] using hrsp.symm.trans hok
    exact absurd (List.cons.inj hfr).1 hne

/-- Settles O12: the core answers a string or the bad digest, and no other command has a fault to take. -/
theorem noReadLeavesItsBuffer : Obligations.NoReadLeavesItsBuffer :=
  ⟨step_ne_fault, generateWith_ne_fault⟩

/-- Settles O6: performing a frame that decodes is executing its command. -/
theorem stepPerformsTheDecodedCommand : Obligations.StepPerformsTheDecodedCommand :=
  ⟨fun _ _ _ _ _ hc hd => (step_frame hc).trans (perform_command hd _), fun _ hc => stepBy_idle hc⟩

/-- Settles O7: the offered frame is the next event, and taking it gives back the state before the offer. -/
theorem offeredTableWordRunsNext : Obligations.OfferedTableWordRunsNext := by
  intro s nbits w i h
  have hd : decode (frameOfTableWord nbits w) = .command i := decode_of_decodeTableWord h
  exact (step_frame (offerFrame_cmd _ s)).trans (perform_command hd s)

/-- Settles O13: the step on a reset is `applyReset`, which writes every register and no port. -/
theorem resetSetsEveryRegister : Obligations.ResetSetsEveryRegister :=
  ⟨fun _ _ hc => ⟨_, step_reset hc, rfl, rfl, rfl, rfl, rfl, rfl, rfl, rfl, rfl, rfl, rfl⟩, rfl⟩

/-- Settles O15: the step hands the event to `handleBy`, which refuses it in every state. -/
theorem brokenFrameDisciplineIsRefused : Obligations.BrokenFrameDisciplineIsRefused :=
  fun _ _ hc => stepBy_event hc

/-- Settles O49: with HMAC-SHA1 put in for the hash every command is the block's own. -/
theorem stepIsTheStepWithHmacSha1 : Obligations.StepIsTheStepWithHmacSha1 := by
  intro s
  rw [stepWith, execWith_hmacSha1, step]

end Sys2Proof.Proofs
end

section
/-! PROOFS. The time-derived variant: its buckets (R104), non-negative (R105) and negative (R106) elapsed time, the step 0 (R107). -/

namespace Sys2Proof.Machine

/-- Of the three things `next()` can do, `MODE = TIME` with `TIME_STEP` 0 leaves none with a value (R107). -/
theorem nextCounter_of_zeroStep {s : State} (hm : s.mode = .time) (hz : s.timeStep = 0) : nextCounter s = none := by
  rcases nextCounter_cases s with ⟨hi, -⟩ | ⟨-, hne, -⟩ | ⟨-, -, hn⟩
  · cases hm.symm.trans hi
  · exact absurd hz hne
  · exact hn

/-- GEN in `READY` is refused when `next()` has no meaning. -/
theorem generateWith_of_nextCounter_none {hash : List Byte → List Byte → List Byte} {s : State} (hp : s.phase = .ready)
    (hn : nextCounter s = none) : generateWith hash s = .refused .zeroTimeStep := by
  simp [generateWith, hp, refuseGenerate, hn]

/-- The counter of a bucket: `NOW` at `k` whole steps after `INIT_SECONDS`, and not yet at `k + 1` (R104, law T2). -/
theorem timeCounter_of_bucket {now init step : Word64} {k : Int} (hpos : 1 ≤ step.toNat)
    (hlo : init.toInt + k * step.toNat ≤ now.toInt) (hhi : now.toInt < init.toInt + (k + 1) * step.toNat) :
    timeCounter now init step = BitVec.ofInt 64 k := by
  have hstep : (0 : Int) < step.toNat := by exact_mod_cast hpos
  have hq : (now.toInt - init.toInt).fdiv step.toNat = k := by
    rw [Int.fdiv_eq_ediv_of_nonneg _ hstep.le, Int.ediv_eq_iff_of_pos hstep]
    constructor <;> linarith
  rw [timeCounter, hq]

/-- Adjacent numbers have different words: adding 1 to a word changes it. -/
theorem ofInt_ne_ofInt_succ (k : Int) : BitVec.ofInt 64 k ≠ BitVec.ofInt 64 (k + 1) := by
  rw [BitVec.ofInt_add]
  generalize BitVec.ofInt 64 k = w
  have hone : BitVec.ofInt 64 1 = 1#64 := rfl
  rw [hone]
  bv_omega

theorem toNat_ofInt_natCast {n : Nat} (h : n < 2 ^ 64) : (BitVec.ofInt 64 n).toNat = n := by
  rw [BitVec.ofInt_natCast, BitVec.toNat_ofNat, Nat.mod_eq_of_lt h]

theorem toNat_ofInt_neg_natCast {n : Nat} (hpos : 1 ≤ n) (h : n ≤ 2 ^ 64) : (BitVec.ofInt 64 (-n)).toNat = 2 ^ 64 - n := by
  have hmod : (-(n : Int)) % 2 ^ 64 = 2 ^ 64 - n := by omega
  rw [BitVec.toNat_ofInt]
  omega

/-- The difference of two samples needs 65 bits signed, and its magnitude 64. -/
theorem toInt_sub_toInt_lt (a b : Word64) : a.toInt - b.toInt < 2 ^ 64 := by
  have ha := a.toInt_lt
  have hb := b.le_toInt
  norm_num at ha hb ⊢
  omega

/-- From `INIT_SECONDS` on the bucket is the quotient, which is at most the elapsed time and so below 2^64 (R105). -/
theorem timeCounter_of_elapsed {now init step : Word64} {e : Nat} (hpos : 1 ≤ step.toNat) (he : now.toInt - init.toInt = e) :
    (timeCounter now init step).toNat = e / step.toNat := by
  have hlt : e < 2 ^ 64 := by have := toInt_sub_toInt_lt now init; omega
  have hq : e / step.toNat < 2 ^ 64 := (Nat.div_le_self e _).trans_lt hlt
  have hlo : e / step.toNat * step.toNat ≤ e := Nat.div_mul_le_self e _
  have hhi : e < (e / step.toNat + 1) * step.toNat := by rw [mul_comm]; exact Nat.lt_mul_div_succ e hpos
  generalize e / step.toNat = q at hq hlo hhi ⊢
  zify at hlo hhi
  rw [timeCounter_of_bucket (k := q) hpos (by linarith) (by linarith), toNat_ofInt_natCast hq]

/-- Before `INIT_SECONDS` the bucket is minus the missing time in steps, rounded up, which is at least 1 and at most the missing
time (R106, decision D11). -/
theorem timeCounter_of_missing {now init step : Word64} {m : Nat} (hpos : 1 ≤ step.toNat) (hm : init.toInt - now.toInt = m)
    (hm1 : 1 ≤ m) : (timeCounter now init step).toNat = 2 ^ 64 - (m + (step.toNat - 1)) / step.toNat := by
  have hlt : m < 2 ^ 64 := by have := toInt_sub_toInt_lt init now; omega
  have hq1 : 1 ≤ (m + (step.toNat - 1)) / step.toNat := Nat.div_pos (by omega) hpos
  have hqm : (m + (step.toNat - 1)) / step.toNat ≤ m := Nat.div_le_of_le_mul (by nlinarith [Nat.sub_add_cancel hpos])
  have hlo : (m + (step.toNat - 1)) / step.toNat * step.toNat ≤ m + (step.toNat - 1) := Nat.div_mul_le_self _ _
  have hhi : m + (step.toNat - 1) < step.toNat * ((m + (step.toNat - 1)) / step.toNat + 1) := Nat.lt_mul_div_succ _ hpos
  generalize (m + (step.toNat - 1)) / step.toNat = q at hq1 hqm hlo hhi ⊢
  zify [hpos] at hlo hhi
  rw [timeCounter_of_bucket (k := -q) hpos (by linarith) (by linarith), toNat_ofInt_neg_natCast hq1 (by omega)]

end Sys2Proof.Machine

namespace Sys2Proof.Proofs

open Sys2Proof Sys2Proof.Machine

/-- Settles O27: the bucket's number is the floor of the quotient, and the words of adjacent numbers differ. -/
theorem timeBucketsFixTheCounter : Obligations.TimeBucketsFixTheCounter := by
  refine ⟨fun _ _ _ _ => timeCounter_of_bucket, fun now1 now2 init step k hpos hlo1 hhi1 hlo2 hhi2 => ?adjacent⟩
  rw [timeCounter_of_bucket hpos hlo1 hhi1, timeCounter_of_bucket hpos hlo2 (by rwa [add_assoc k 1 1])]
  exact ofInt_ne_ofInt_succ k

/-- Settles O28: the quotient is the number of the bucket, and it is below 2^64 because the elapsed time is. -/
theorem nonNegativeElapsedIsExactQuotient : Obligations.NonNegativeElapsedIsExactQuotient :=
  fun _ _ _ hpos hle => timeCounter_of_elapsed hpos (Int.toNat_of_nonneg (Int.sub_nonneg.2 hle)).symm

/-- Settles O29: the bucket before `INIT_SECONDS` has a negative number, whose word is 2^64 less its magnitude. -/
theorem negativeElapsedWrapsTheFloor : Obligations.NegativeElapsedWrapsTheFloor :=
  fun _ _ _ hpos hlt => timeCounter_of_missing hpos (by omega) (by omega)

/-- Settles O30: with the step 0 `next()` has no meaning, and GEN in `READY` reaches it. -/
theorem zeroTimeStepHasNoMeaning : Obligations.ZeroTimeStepHasNoMeaning := by
  intro s hp hm hz
  have hstep : s.timeStep = 0 := BitVec.eq_of_toNat_eq hz
  exact generateWith_of_nextCounter_none hp (nextCounter_of_zeroStep hm hstep)

end Sys2Proof.Proofs
end

section
/-! PROOFS. The core as one function (R128) and GEN (R120, R123): what it answers, what it writes, and a run of it (R102). -/

namespace Sys2Proof.Machine

/-- Steps 4 to 6 on a digest of 20 bytes, as numbers: the window modulo 2^31, then modulo the power of ten (R124 to R127). -/
theorem otpOfDigest_of_length {digest : List Byte} (h : digest.length = 20) (d : Nat) :
    otpOfDigest digest d =
      .otp (formatOtp (fromBe (slice digest (digestOffset digest) (digestOffset digest + 4)) % 2 ^ 31 % 10 ^ d) d) := by
  rw [otpOfDigest, digestWindow_eq h]
  simp only [truncateWindow_ofNat, reduceOtp]

/-- GEN in `READY` on a digest of 20 bytes answers the core's string for the counter that `next()` gave (R120). -/
theorem generateWith_answers {hash : List Byte → List Byte → List Byte} {s s1 : State} {ctr : Word64} (hp : s.phase = .ready)
    (hn : nextCounter s = some (ctr, s1)) (hl : (hash (key s1) (be8 ctr)).length = 20) :
    ∃ chars, otpCore hash (key s1) ctr s1.digits.toNat = .otp chars ∧ generateWith hash s = .next (respond .ok chars s1) := by
  rcases otpCore_cases hash (key s1) ctr s1.digits.toNat with ⟨-, v, hv⟩ | ⟨hne, -⟩
  · exact ⟨_, hv, by simp [generateWith, hp, refuseGenerate, hn, hv]⟩
  · exact absurd hl hne

/-- GEN in `READY` on any other digest takes the fatal fault (R123). -/
theorem generateWith_faults {hash : List Byte → List Byte → List Byte} {s s1 : State} {ctr : Word64} (hp : s.phase = .ready)
    (hn : nextCounter s = some (ctr, s1)) (hl : (hash (key s1) (be8 ctr)).length ≠ 20) :
    generateWith hash s = .next (raiseFatal s1) := by
  simp [generateWith, hp, refuseGenerate, hn, otpCore_badDigest hl]

/-- GEN of this block, in `READY`: HMAC-SHA1 always gives 20 bytes (R151). -/
theorem exec_gen_answers {s s1 : State} {ctr : Word64} (hp : s.phase = .ready) (hn : nextCounter s = some (ctr, s1)) :
    ∃ chars, otpCore hmacSha1 (key s) ctr s.digits.toNat = .otp chars ∧ exec .gen s = .next (respond .ok chars s1) := by
  obtain ⟨-, hkey, hdigits⟩ := nextCounter_phase_key_digits hn
  rw [← hkey, ← hdigits]
  exact generateWith_answers hp hn (hmacSha1_length_twenty _ _)

/-- The string of an answered GEN is the core's for the key, the counter and the digit count (law G1). -/
theorem otpCore_of_exec_gen {s s1 t : State} {ctr : Word64} {chars : List Byte} (hp : s.phase = .ready)
    (hn : nextCounter s = some (ctr, s1)) (h : exec .gen s = .next t) (hrsp : t.rsp = s.rsp ++ [0x00 :: chars]) :
    otpCore hmacSha1 (key s) ctr s.digits.toNat = .otp chars := by
  obtain ⟨chars', hotp, hg⟩ := exec_gen_answers hp hn
  cases hg.symm.trans h
  rw [respond_rsp, nextCounter_rsp hn] at hrsp
  have hsame : chars' = chars := by simpa [Status.code] using hrsp
  rw [hotp, hsame]

/-- Every character of the string is a decimal digit (R127). -/
theorem mem_formatOtp {v d : Nat} {c : Byte} (h : c ∈ formatOtp v d) : 0x30 ≤ c.toNat ∧ c.toNat ≤ 0x39 := by
  obtain ⟨i, -, rfl⟩ := List.mem_map.1 h
  rw [otpChar_toNat]
  omega

/-- A status other than `OK` is no answer that begins with `0x00`. -/
theorem raise_rsp_ne_ok {st : Status} (hst : st ≠ .ok) (s : State) (payload : List Byte) :
    (raise st s).rsp ≠ s.rsp ++ [0x00 :: payload] := by
  intro h
  obtain ⟨hcode, -⟩ : st.code = 0x00 ∧ payload = [] := by simpa using h
  exact hst (Status.code_injective hcode)

/-- The sequence law on the fold: an engine with `MODE = INC` that performs one GEN for each sample of `NOW` answers the core's
strings for consecutive counters, whatever the samples are (R102). -/
theorem performAll_gen (nows : List Word64) {s : State} (hp : s.phase = .ready) (hm : s.mode = .inc) :
    ∃ (t : State) (strings : List (List Byte)), performAll (nows.map fun now => ([0x10], now)) s = .next t ∧
      registers t = { registers s with counter := s.counter + BitVec.ofNat 64 nows.length } ∧ t.cmd = s.cmd ∧
      strings.length = nows.length ∧ t.rsp = s.rsp ++ strings.map (fun chars => 0x00 :: chars) ∧
      ∀ j (h : j < strings.length), otpCore hmacSha1 (key s) (s.counter + BitVec.ofNat 64 j) s.digits.toNat = .otp strings[j] := by
  induction nows generalizing s with
  | nil => exact ⟨s, [], rfl, by simp [registers], rfl, rfl, by simp, nofun⟩
  | cons now nows ih =>
    have hsucc : ∀ n, s.counter + 1 + BitVec.ofNat 64 n = s.counter + BitVec.ofNat 64 (n + 1) := by
      intro n; rw [BitVec.add_assoc, BitVec.ofNat_add, BitVec.add_comm 1]; rfl
    obtain ⟨chars, (hotp : otpCore hmacSha1 (key s) s.counter s.digits.toNat = .otp chars), hg⟩ :=
      exec_gen_answers (s := { s with now := now }) hp (nextCounter_of_inc hm)
    obtain ⟨t, strings, hrun, hregs, hcmd, hlen, hrsp, hstr⟩ :=
      ih (s := respond .ok chars { s with now := now, counter := s.counter + 1 }) hp hm
    refine ⟨t, chars :: strings, ?run, ?regs, hcmd, by simp [hlen], ?rsp, ?strings⟩
    case run =>
      have hf : perform [0x10] { s with now := now } = .next (respond .ok chars { s with now := now, counter := s.counter + 1 }) := hg
      rw [List.map_cons, performAll, hf]
      exact hrun
    case regs =>
      rw [hregs, List.length_cons, ← hsucc]
      rfl
    case rsp => rw [hrsp]; simp [Status.code]
    case strings =>
      intro j h
      cases j with
      | zero => simpa using hotp
      | succ j => rw [← hsucc]; exact hstr j (Nat.lt_of_succ_lt_succ h)

end Sys2Proof.Machine

namespace Sys2Proof.Proofs

open Sys2Proof Sys2Proof.Machine

/-- Settles O35: on 20 bytes the window is inside the digest, and the mask of its word is the number modulo 2^31. -/
theorem coreComposesItsStages : Obligations.CoreComposesItsStages := by
  intro hash secret ctr d
  exact ⟨fun hl => (otpCore_of_length hl d).trans (otpOfDigest_of_length hl d), fun hl => otpCore_badDigest hl d⟩

/-- Settles O36: `next()` gives the old counter and leaves it advanced, and HMAC-SHA1 gives 20 bytes. -/
theorem genIncAnswersAndAdvances : Obligations.GenIncAnswersAndAdvances :=
  fun _ hp hm => exec_gen_answers hp (nextCounter_of_inc hm)

/-- Settles O37: `next()` gives the time counter and writes nothing, and HMAC-SHA1 gives 20 bytes. -/
theorem genTimeAnswersAndWritesNothing : Obligations.GenTimeAnswersAndWritesNothing :=
  fun _ hp hm hstep => exec_gen_answers hp (nextCounter_of_time hm hstep)

/-- Settles O38: only the answer with a string begins with `0x00`, and that string is a `formatOtp` of `DIGITS` characters. -/
theorem genStringHasDigitsDecimalCharacters : Obligations.GenStringHasDigitsDecimalCharacters := by
  intro hash s t chars h hrsp
  rcases generateWith_cases hash s with ⟨-, hg⟩ | ⟨-, hg⟩ | ⟨-, -, hg⟩ | ⟨ctr, s1, v, -, hn, -, -, hg⟩ | ⟨ctr, s1, -, hn, -, hg⟩ <;>
    cases hg.symm.trans h
  · exact absurd hrsp (raise_rsp_ne_ok (st := .eState) nofun s chars)
  · exact absurd hrsp (raise_rsp_ne_ok (st := .eFatal) nofun s chars)
  · obtain ⟨-, -, hdigits⟩ := nextCounter_phase_key_digits hn
    rw [respond_rsp, nextCounter_rsp hn] at hrsp
    have hchars : formatOtp v s1.digits.toNat = chars := by simpa [Status.code] using hrsp
    subst hchars
    exact ⟨by rw [formatOtp_length, hdigits], fun _ hc => mem_formatOtp hc⟩
  · rw [raiseFatal_rsp, nextCounter_rsp hn] at hrsp
    simp at hrsp

/-- Settles O39: the core is a function of the key, the counter and the digit count. -/
theorem genStringDependsOnlyOnKeyCounterDigits : Obligations.GenStringDependsOnlyOnKeyCounterDigits := by
  intro s s' s1 s1' t t' ctr chars chars' hp hp' hn hn' hkey hdigits h h' hrsp hrsp'
  have hotp := otpCore_of_exec_gen hp hn h hrsp
  rw [hkey, hdigits, otpCore_of_exec_gen hp' hn' h' hrsp'] at hotp
  exact (CoreResult.otp.inj hotp).symm

/-- Settles O40: `next()` has written before the digest is checked, and the fault keeps what it wrote. -/
theorem fatalDigestFaultsForEveryHash : Obligations.FatalDigestFaultsForEveryHash := by
  intro hash s s1 ctr hp hn hl
  obtain ⟨-, hkey, -⟩ := nextCounter_phase_key_digits hn
  refine ⟨raiseFatal s1, generateWith_faults hp hn (hkey ▸ hl), ?_⟩
  rcases nextCounter_frame hn with ⟨hm, -, rfl⟩ | ⟨hm, -, -, rfl⟩
  · exact ⟨rfl, by simp [hm], rfl⟩
  · exact ⟨rfl, by simp [hm], rfl⟩

/-- Settles O41: the run is the fold of `perform` (O8), and by induction on the samples each GEN takes the counter the one before
left. -/
theorem hotpRunUsesConsecutiveCounters : Obligations.HotpRunUsesConsecutiveCounters := by
  intro nows s hp hm
  obtain ⟨t, strings, hrun, hregs, hcmd, hlen, hrsp, hstr⟩ := performAll_gen nows hp hm
  have hframes : frameEvents (nows.map fun now => ([0x10], now)) = nows.map fun now => Event.frame [0x10] now := by
    simp [frameEvents]
  have hfold := run_frameEvents (nows.map fun now => ([0x10], now)) s s.cmd
  rw [hframes, List.length_map] at hfold
  exact ⟨t, hfold.trans hrun, hregs, hcmd, strings, hlen, hrsp, hstr⟩

end Sys2Proof.Proofs
end

section
/-! PROOFS. The keyed hash: a key enters HMAC-SHA1 through its key block alone (R150, R152). -/

namespace Sys2Proof.Machine

theorem hmacSha1_congr {k k' : List Byte} (h : hmacKeyBlock k = hmacKeyBlock k') (msg : List Byte) :
    hmacSha1 k msg = hmacSha1 k' msg := by
  simp only [hmacSha1, hmacPad, h]

theorem hmacKeyBlock_of_le {k : List Byte} (h : k.length ≤ 64) : hmacKeyBlock k = k ++ List.replicate (64 - k.length) 0 := by
  simp only [hmacKeyBlock, if_neg (Nat.not_lt.2 h)]

theorem hmacKeyBlock_of_lt {k : List Byte} (h : 64 < k.length) :
    hmacKeyBlock k = sha1 k ++ List.replicate (64 - (sha1 k).length) 0 := by
  simp only [hmacKeyBlock, if_pos h]

/-- Zero bytes at the end of a key take the place of zero bytes of its padding. -/
theorem hmacKeyBlock_append_zeros {k : List Byte} {n : Nat} (h : k.length + n ≤ 64) :
    hmacKeyBlock (k ++ List.replicate n 0) = hmacKeyBlock k := by
  have hsplit : n + (64 - (k.length + n)) = 64 - k.length := by omega
  rw [hmacKeyBlock_of_le (by simpa using h), hmacKeyBlock_of_le (by omega), List.append_assoc, List.length_append,
    List.length_replicate, List.replicate_append_replicate, hsplit]

/-- The digest of a long key is a key of 20 bytes, which is padded as it is. -/
theorem hmacKeyBlock_sha1 {k : List Byte} (h : 64 < k.length) : hmacKeyBlock (sha1 k) = hmacKeyBlock k := by
  rw [hmacKeyBlock_of_lt h, hmacKeyBlock_of_le (by rw [sha1_length]; decide)]

end Sys2Proof.Machine

namespace Sys2Proof.Proofs

open Sys2Proof Sys2Proof.Machine

/-- Settles O44: in both cases the two keys have the same key block. -/
theorem hmacKeysWithTheSameKeyBlockAgree : Obligations.HmacKeysWithTheSameKeyBlockAgree :=
  ⟨fun _ msg _ h => hmacSha1_congr (hmacKeyBlock_append_zeros h) msg,
    fun _ msg h => (hmacSha1_congr (hmacKeyBlock_sha1 h) msg).symm⟩

end Sys2Proof.Proofs
end

section
/-! PROOFS. Frames (R180, R120): what the commands leave unchanged, how `PHASE` moves (R27), what moves after construction (I4, I5), and
the fatal fault that stands until reset (R203, R213). -/

namespace Sys2Proof.Machine

/-- Only the frame of one byte decodes to GEN. -/
theorem eq_gen_frame_of_decode {f : Frame} (h : decode f = .command .gen) : f = [0x10] :=
  (encode_of_decode h).symm

/-- In `FAULTED` GEN is refused before its hash is run, so that every hash gives the block's own commands (R204). -/
theorem execWith_of_faulted (hash : List Byte → List Byte → List Byte) (i : Instr) {s : State} (hp : s.phase = .faulted) :
    execWith hash i s = exec i s := by
  by_cases hi : i = .gen
  · subst hi
    have hr : refuseGenerate s.phase = some .eFatal := by rw [hp]; rfl
    exact (generateWith_refused hr).trans (generateWith_refused hr).symm
  · exact execWith_of_ne_gen hash hi s

/-- Performing a frame depends on the way of executing commands only through the outcomes it gives in this state. -/
theorem performBy_congr {execute execute' : Executor} {s : State} (f : Frame) (h : ∀ i, execute i s = execute' i s) :
    performBy execute f s = performBy execute' f s := by
  rw [performBy, performBy]
  cases decode f with
  | refuse e => rfl
  | command i => exact h i

theorem stepWith_of_faulted (hash : List Byte → List Byte → List Byte) {s : State} (hp : s.phase = .faulted) :
    stepWith hash s = step s := by
  rw [stepWith, step]
  cases hc : s.cmd with
  | nil => rw [stepBy_idle hc, stepBy_idle hc]
  | cons e rest =>
    rw [stepBy_event hc, stepBy_event hc]
    cases e with
    | frame f now => exact performBy_congr f fun i => execWith_of_faulted hash i hp
    | reset => rfl
    | resetDuring f => rfl
    | frameDisciplineBroken => rfl

/-- With an engine in place a command writes no register, but GEN advances `COUNTER` in `READY` with `MODE = INC` (R24, I4, I5). -/
theorem registers_of_exec {i : Instr} {s t : State} (hp : s.phase ≠ .unconf) (h : exec i s = .next t) :
    registers t = registers s ∨
    (i = .gen ∧ s.phase = .ready ∧ s.mode = .inc ∧ registers t = { registers s with counter := s.counter + 1 }) := by
  rcases exec_next_cases h with ⟨st, -, rfl⟩ | ⟨-, rfl⟩ | ⟨_, _, _, _, _, _, -, hu, -⟩ | ⟨ctr, s1, v, rfl, hr, hn, rfl⟩
  · exact .inl rfl
  · exact .inl rfl
  · exact absurd hu hp
  · rcases nextCounter_frame hn with ⟨hm, -, rfl⟩ | ⟨-, -, -, rfl⟩
    · exact .inr ⟨rfl, hr, hm, rfl⟩
    · exact .inl rfl

/-- A step on a reset is the reset (R36, R37). -/
theorem phase_of_reset {s t : State} (hr : nextIsReset s = true) (h : step s = .next t) : t.phase = .unconf := by
  rcases step_next_cases h with ⟨hc, -⟩ | ⟨f, now, rest, hc, -⟩ | ⟨-, e, rest, -, rfl⟩
  · simp [nextIsReset, hc] at hr
  · simp [nextIsReset, hc] at hr
  · rfl

/-- A step that is no reset: it is idle, or it performs a frame. -/
theorem step_next_cases_of_no_reset {s t : State} (hr : nextIsReset s = false) (h : step s = .next t) :
    t = s ∨ ∃ f now rest, s.cmd = .frame f now :: rest ∧ perform f { s with now := now, cmd := rest } = .next t := by
  rcases step_next_cases h with ⟨-, ht⟩ | hf | ⟨hreset, -⟩
  · exact .inl ht
  · exact .inr hf
  · cases hr.symm.trans hreset

/-- With an engine in place a step that is no reset writes no register, but on the GEN frame it advances `COUNTER` in `READY` with
`MODE = INC`. -/
theorem registers_of_step {s t : State} (hp : s.phase ≠ .unconf) (hr : nextIsReset s = false) (h : step s = .next t) :
    registers t = registers s ∨
    (s.phase = .ready ∧ s.mode = .inc ∧ (∃ now rest, s.cmd = .frame [0x10] now :: rest) ∧
      registers t = { registers s with counter := s.counter + 1 }) := by
  rcases step_next_cases_of_no_reset hr h with rfl | ⟨f, now, rest, hc, hf⟩
  · exact .inl rfl
  cases hd : decode f with
  | refuse e => cases (perform_refuse hd _).symm.trans hf; exact .inl rfl
  | command i =>
    rcases registers_of_exec (s := { s with now := now, cmd := rest }) hp ((perform_command hd _).symm.trans hf) with
      hsame | ⟨rfl, hready, hm, hregs⟩
    · exact .inl hsame
    · obtain rfl := eq_gen_frame_of_decode hd
      exact .inr ⟨hready, hm, ⟨now, rest, hc⟩, hregs⟩

/-- A command changes the phase only by a construction. -/
theorem exec_phase {i : Instr} {s t : State} (h : exec i s = .next t) (hne : t.phase ≠ s.phase) :
    s.phase = .unconf ∧ t.phase = .ready ∧ t.rsp = s.rsp ++ [[0x00]] ∧ ∃ digits, configureDigits i = some digits := by
  rcases exec_next_cases h with ⟨st, -, rfl⟩ | ⟨-, rfl⟩ | ⟨digits, _, _, _, _, _, hd, hu, -, rfl, -⟩ | ⟨ctr, s1, v, -, -, hn, rfl⟩
  · exact absurd rfl hne
  · exact absurd rfl hne
  · exact ⟨hu, rfl, rfl, digits, hd⟩
  · exact absurd (nextCounter_phase_key_digits hn).1 hne

/-- Everything a configure command that answers a next state can have done: refused, or an engine constructed (R180). -/
theorem exec_configure_next_cases {i : Instr} {digits : Byte} {s t : State} (hi : configureDigits i = some digits)
    (h : exec i s = .next t) :
    (∃ st, st ≠ .ok ∧ t = raise st s) ∨
    (s.phase = .unconf ∧ ∃ mode counter init step secret, t = construct digits mode counter init step secret s) := by
  rcases exec_next_cases h with hraise | ⟨rfl, -⟩ | ⟨d, mode, counter, init, step, secret, hd, hu, -, ht, -⟩ | ⟨_, _, _, rfl, -⟩
  · exact .inl hraise
  · cases hi
  · cases hi.symm.trans hd
    exact .inr ⟨hu, mode, counter, init, step, secret, ht⟩
  · cases hi

/-- GEN changes the phase only by the fatal fault, which answers `[0x80]`, and in `READY` nothing else does (R203). -/
theorem generateWith_phase {hash : List Byte → List Byte → List Byte} {s t : State} (h : generateWith hash s = .next t) :
    t.phase = s.phase ∧ (s.phase = .ready → t.rsp ≠ s.rsp ++ [[0x80]]) ∨
    s.phase = .ready ∧ t.phase = .faulted ∧ t.rsp = s.rsp ++ [[0x80]] := by
  rcases generateWith_cases hash s with ⟨hp, hg⟩ | ⟨hp, hg⟩ | ⟨-, -, hg⟩ | ⟨ctr, s1, v, -, hn, -, -, hg⟩ | ⟨ctr, s1, hp, hn, -, hg⟩ <;>
    cases hg.symm.trans h
  · exact .inl ⟨rfl, fun hr => nomatch hp.symm.trans hr⟩
  · exact .inl ⟨rfl, fun hr => nomatch hp.symm.trans hr⟩
  · obtain ⟨hphase, -, -⟩ := nextCounter_phase_key_digits hn
    exact .inl ⟨hphase, fun _ => by simp [nextCounter_rsp hn, Status.code]⟩
  · exact .inr ⟨hp, rfl, by rw [raiseFatal_rsp, nextCounter_rsp hn]⟩

end Sys2Proof.Machine

namespace Sys2Proof.Proofs

open Sys2Proof Sys2Proof.Machine

/-- Settles O48: in `FAULTED` the step with any hash is the block's own, which then performs no GEN and constructs nothing. -/
theorem fatalFaultIsStickyForEveryHash : Obligations.FatalFaultIsStickyForEveryHash := by
  intro hash hash' s hp
  refine ⟨(stepWith_of_faulted hash hp).trans (stepWith_of_faulted hash' hp).symm, fun hr t h => ?registers⟩
  rcases registers_of_step (by simp [hp]) hr ((stepWith_of_faulted hash hp).symm.trans h) with hsame | ⟨hready, -⟩
  · exact hsame
  · cases hp.symm.trans hready

/-- Settles O50: a reset leaves `UNCONF`; of the commands only a construction and the fatal fault of GEN write `PHASE`. -/
theorem phaseChangesExactlyAsListed : Obligations.PhaseChangesExactlyAsListed := by
  refine ⟨fun s t h => ⟨fun hr => ?reset, fun hr hne => ?other⟩, fun s t i digits hp hi h hrsp => ?configured,
    fun hash s t h hne => ?fatal, fun hash s t hp h hrsp => ?faulted⟩
  case reset => exact phase_of_reset hr h
  case other =>
    rcases step_next_cases_of_no_reset hr h with rfl | ⟨f, now, rest, hc, hf⟩
    · exact absurd rfl hne
    cases hd : decode f with
    | refuse e => cases (perform_refuse hd _).symm.trans hf; exact absurd rfl hne
    | command i =>
      obtain ⟨hu, hready, hrsp, digits, hi⟩ := exec_phase ((perform_command hd _).symm.trans hf) hne
      exact ⟨hu, hready, hrsp, f, now, rest, i, digits, hc, hd, hi⟩
  case configured =>
    rcases exec_configure_next_cases hi h with ⟨st, hst, rfl⟩ | ⟨-, _, _, _, _, _, rfl⟩
    · exact absurd hrsp (raise_rsp_ne_ok hst s [])
    · rfl
  case fatal =>
    rcases generateWith_phase h with ⟨hsame, -⟩ | hfatal
    · exact absurd hsame hne
    · exact hfatal
  case faulted =>
    rcases generateWith_phase h with ⟨-, hno⟩ | ⟨-, hf, -⟩
    · exact absurd hrsp (hno hp)
    · exact hf

/-- Settles O51: outside `UNCONF` nothing is constructed, and `next()` of the incrementing variant alone writes a register. -/
theorem onlyTheCounterMovesUntilReset : Obligations.OnlyTheCounterMovesUntilReset :=
  fun _ _ h hp hr => registers_of_step hp hr h

/-- Settles O52: a refusal sends its status and a construction `OK`; neither touches the other ports. -/
theorem configureFrame : Obligations.ConfigureFrame := by
  intro s t i digits hi h
  rcases exec_configure_next_cases hi h with ⟨st, -, rfl⟩ | ⟨hu, _, _, _, _, _, rfl⟩
  · exact ⟨rfl, rfl, ⟨_, rfl⟩, .inl rfl⟩
  · exact ⟨rfl, rfl, ⟨_, rfl⟩, .inr ⟨hu, rfl, rfl, rfl⟩⟩

/-- Settles O53: GEN of this block is refused, or answers a string from the state that `next()` left. -/
theorem genFrame : Obligations.GenFrame := by
  intro s t h
  rcases exec_next_cases h with ⟨st, -, rfl⟩ | ⟨hi, -⟩ | ⟨_, _, _, _, _, _, hi, -⟩ | ⟨ctr, s1, v, -, hp, hn, rfl⟩
  · exact ⟨rfl, rfl, rfl, rfl, rfl, rfl, rfl, rfl, rfl, ⟨_, rfl⟩, fun _ => rfl⟩
  · cases hi
  · cases hi
  · rcases nextCounter_frame hn with ⟨hm, -, rfl⟩ | ⟨-, -, -, rfl⟩
    · exact ⟨rfl, rfl, rfl, rfl, rfl, rfl, rfl, rfl, rfl, ⟨_, rfl⟩, fun hno => absurd ⟨hp, hm⟩ hno⟩
    · exact ⟨rfl, rfl, rfl, rfl, rfl, rfl, rfl, rfl, rfl, ⟨_, rfl⟩, fun _ => rfl⟩

end Sys2Proof.Proofs
end

section
/-! PROOFS. Noninterference: what the secret (R21, R57, R215) and the sample of `NOW` (R108) do not influence. -/

namespace Sys2Proof.Machine

/-- The relations between states that every command but GEN in `READY` keeps: related states look alike to the phase checks and to
STAT, and a response or a construction leaves them related. `Compatible.relatedOutcomes_exec` ties it to the model. -/
structure Compatible (r : State → State → Prop) : Prop where
  phase {s s' : State} (h : r s s') : s.phase = s'.phase
  stat {s s' : State} (h : r s s') : statPayload s = statPayload s'
  after_respond {s s' : State} (h : r s s') (st : Status) (payload : List Byte) : r (respond st payload s) (respond st payload s')
  after_construct {s s' : State} (h : r s s') (digits : Byte) (mode : Mode) (counter init step : Word64) (secret : List Byte) :
    r (construct digits mode counter init step secret s) (construct digits mode counter init step secret s')

/-- What does not read the part of the state that `erase` clears is the same for two states that agree in the rest. -/
theorem eq_of_erased_eq {α : Type} {erase : State → State} {s s' : State} (h : erase s = erase s') (g : State → α)
    (hg : ∀ u, g (erase u) = g u) : g s = g s' :=
  calc g s
    _ = g (erase s) := (hg s).symm
    _ = g (erase s') := congrArg g h
    _ = g s' := hg s'

theorem sameButSecret.congr {α : Type} {s s' : State} (h : sameButSecret s s') (g : State → α)
    (hg : ∀ u : State, g { u with secret := [], secretLen := 0 } = g u) : g s = g s' :=
  eq_of_erased_eq (erase := fun u => { u with secret := [], secretLen := 0 }) h g hg

theorem sameButNow.congr {α : Type} {s s' : State} (h : sameButNow s s') (g : State → α)
    (hg : ∀ u : State, g { u with now := 0 } = g u) : g s = g s' :=
  eq_of_erased_eq (erase := fun u => { u with now := 0 }) h g hg

/-- An operation that only carries the secret along, or overwrites it, leaves two states that differ only in it so. -/
theorem sameButSecret.map {s s' : State} (h : sameButSecret s s') (g : State → State)
    (hg : ∀ u : State, sameButSecret (g { u with secret := [], secretLen := 0 }) (g u)) : sameButSecret (g s) (g s') :=
  h.congr (fun u => ({ g u with secret := [], secretLen := 0 } : State)) hg

/-- An operation that only carries `NOW` along leaves two states that differ only in it so. -/
theorem sameButNow.map {s s' : State} (h : sameButNow s s') (g : State → State)
    (hg : ∀ u : State, sameButNow (g { u with now := 0 }) (g u)) : sameButNow (g s) (g s') :=
  h.congr (fun u => ({ g u with now := 0 } : State)) hg

theorem compatible_sameButSecret : Compatible sameButSecret where
  phase h := h.congr State.phase fun _ => rfl
  stat h := h.congr statPayload fun _ => rfl
  after_respond h st payload := h.map (respond st payload) fun _ => rfl
  after_construct h digits mode counter init step secret := h.map (construct digits mode counter init step secret) fun _ => rfl

theorem compatible_sameButNow : Compatible sameButNow where
  phase h := h.congr State.phase fun _ => rfl
  stat h := h.congr statPayload fun _ => rfl
  after_respond h st payload := h.map (respond st payload) fun _ => rfl
  after_construct h digits mode counter init step secret := h.map (construct digits mode counter init step secret) fun _ => rfl

theorem Compatible.relatedOutcomes_configure {r : State → State → Prop} (hr : Compatible r) {s s' : State} (h : r s s') (digits : Byte)
    (own : Option Status) (mode : Mode) (counter init step : Word64) (secret : List Byte) :
    relatedOutcomes r (configure digits own (construct digits mode counter init step secret) s)
      (configure digits own (construct digits mode counter init step secret) s') := by
  unfold configure
  rw [← hr.phase h]
  cases refuseConfigure s.phase with
  | some st => exact hr.after_respond h st []
  | none =>
    by_cases hd : digitsValid digits = true
    · rw [if_pos hd, if_pos hd]
      cases own with
      | some st => exact hr.after_respond h st []
      | none => exact hr.after_construct h digits mode counter init step secret
    · rw [if_neg hd, if_neg hd]
      exact hr.after_respond h .eDigits []

/-- GEN that the phase refuses runs neither `next()` nor the hash. -/
theorem Compatible.relatedOutcomes_gen {r : State → State → Prop} (hr : Compatible r) {s s' : State} (h : r s s')
    (hp : s.phase ≠ .ready) : relatedOutcomes r (exec .gen s) (exec .gen s') := by
  obtain ⟨st, hst⟩ : ∃ st, refuseGenerate s.phase = some st := by
    cases hphase : s.phase with
    | unconf => exact ⟨_, rfl⟩
    | ready => exact absurd hphase hp
    | faulted => exact ⟨_, rfl⟩
  rw [exec_gen, exec_gen, generateWith_refused hst, generateWith_refused (hr.phase h ▸ hst)]
  exact hr.after_respond h st []

theorem Compatible.relatedOutcomes_exec {r : State → State → Prop} (hr : Compatible r) {s s' : State} (h : r s s') {i : Instr}
    (hi : i = .gen → s.phase ≠ .ready) : relatedOutcomes r (exec i s) (exec i s') := by
  rcases instr_cases i with ⟨digits, hd⟩ | rfl | rfl
  · obtain ⟨own, mode, counter, init, step, secret, he, -⟩ := exec_configure hd
    rw [he, he]
    exact hr.relatedOutcomes_configure h digits own mode counter init step secret
  · exact hr.relatedOutcomes_gen h (hi rfl)
  · rw [exec_stat, exec_stat, hr.stat h]
    exact hr.after_respond h .ok _

/-- A frame other than GEN's is answered alike by two states that differ only in the secret. -/
theorem perform_sameButSecret {s s' : State} (h : sameButSecret s s') {f : Frame} (hf : f = [0x10] → s.phase ≠ .ready) :
    relatedOutcomes sameButSecret (perform f s) (perform f s') := by
  cases hd : decode f with
  | refuse e =>
    rw [perform_refuse hd, perform_refuse hd]
    exact compatible_sameButSecret.after_respond h _ []
  | command i =>
    rw [perform_command hd, perform_command hd]
    refine compatible_sameButSecret.relatedOutcomes_exec h ?_
    rintro rfl
    exact hf (eq_gen_frame_of_decode hd)

/-- GEN of an incrementing engine does not read `NOW` (R101). -/
theorem exec_gen_sameButNow_of_inc {s s' : State} (h : sameButNow s s') (hp : s.phase = .ready) (hm : s.mode = .inc) :
    relatedOutcomes sameButNow (exec .gen s) (exec .gen s') := by
  have hkey : key s = key s' := h.congr key fun _ => rfl
  have hcounter : s.counter = s'.counter := h.congr State.counter fun _ => rfl
  have hdigits : s.digits = s'.digits := h.congr State.digits fun _ => rfl
  have hp' : s'.phase = .ready := (h.congr State.phase fun _ => rfl).symm.trans hp
  have hm' : s'.mode = .inc := (h.congr State.mode fun _ => rfl).symm.trans hm
  obtain ⟨chars, hotp, hg⟩ := exec_gen_answers hp (nextCounter_of_inc hm)
  obtain ⟨chars', hotp', hg'⟩ := exec_gen_answers hp' (nextCounter_of_inc hm')
  rw [hkey, hcounter, hdigits, hotp'] at hotp
  cases hotp
  rw [hg, hg']
  exact h.map (fun u => respond .ok chars { u with counter := u.counter + 1 }) fun _ => rfl

end Sys2Proof.Machine

namespace Sys2Proof.Proofs

open Sys2Proof Sys2Proof.Machine

/-- Settles O54: the phase checks, STAT and the decoder do not read the secret; a construction and a reset overwrite it. -/
theorem secretInfluencesOnlyGen : Obligations.SecretInfluencesOnlyGen := by
  intro s s' h hgen
  have hcmd : s.cmd = s'.cmd := h.congr State.cmd fun _ => rfl
  rw [step, step]
  cases hc : s.cmd with
  | nil =>
    rw [stepBy_idle hc, stepBy_idle (hcmd ▸ hc)]
    exact h
  | cons e rest =>
    rw [stepBy_event hc, stepBy_event (hcmd ▸ hc)]
    cases e with
    | frame f now =>
      refine perform_sameButSecret (h.map (fun u => { u with now := now, cmd := rest }) fun _ => rfl) ?_
      rintro rfl hp
      exact hgen hp now rest hc
    | reset => exact h.map (fun u => applyReset { u with cmd := rest }) fun _ => rfl
    | resetDuring f => exact h.map (fun u => applyReset { u with cmd := rest }) fun _ => rfl
    | frameDisciplineBroken => rfl

/-- Settles O55: only `next()` of the time-derived variant reads `NOW`. -/
theorem clockInfluencesOnlyTimeDerivedGen : Obligations.ClockInfluencesOnlyTimeDerivedGen := by
  intro i s s' h hno
  by_cases hgen : i = .gen ∧ s.phase = .ready
  · obtain ⟨rfl, hp⟩ := hgen
    cases hm : s.mode with
    | inc => exact exec_gen_sameButNow_of_inc h hp hm
    | time => exact absurd ⟨rfl, hp, hm⟩ hno
  · exact compatible_sameButNow.relatedOutcomes_exec h fun hi hp => hgen ⟨hi, hp⟩

end Sys2Proof.Proofs
end
